-- ==== Sys2Proof/Word.lean ====
section
/-! DEFINITION. The value types of the machine. Every value is unsigned (R10). -/

namespace Sys2Proof

/-- An 8-bit value: a general register, a timer, a byte of memory (R21, R23, R29). -/
abbrev Byte := BitVec 8

/-- A 16-bit value: an instruction word, `I`, `pc`, a stack entry (R26, R27, R28, R80). -/
abbrev Word := BitVec 16

/-- The number of a general register, `V0` to `VF` (R21). -/
abbrev Reg := Fin 16

/-- One row of the display, bit `x` being the cell of column `x` (R25). -/
abbrev PixelRow := BitVec 64

/-- The display: 32 rows of 64 cells (R25). The cell of column `x` in row `y`, index `y*64 + x` of the
spec's row-major buffer, is bit `x` of row `y` (log 22). -/
abbrev Frame := Vector PixelRow 32

end Sys2Proof
end

