-- ==== Sys2Proof/Config.lean ====
section
/-! DEFINITION. What is fixed for a machine: the sizes of R6, the parameters FONT and INSTR_HZ (R7, R24), the free random
byte (R7, R144) and the free schedule of events (R228), whose events are declared first. -/

/-- The kinds of event that change the state (R8, R230). -/
inductive Sys2Proof.Machine.Event where
  /-- one instruction step (R90) -/
  | instrTick
  /-- one timer step (R226) -/
  | timerTick
  /-- the host drives a new level on `keys[15:0]` (R240) -/
  | driveKeys (keys : BitVec 16)
  /-- the host loads a ROM (R239) -/
  | romLoad (bytes : List Sys2Proof.Byte)
  /-- the host resets the machine (R238) -/
  | reset
  deriving DecidableEq, Repr, Inhabited

namespace Sys2Proof.Config

/-- `ROM_BASE` (R6): where a ROM is loaded and where `pc` starts. -/
def romBase : Nat := 0x200

/-- `ROM_MAX` (R6): the longest ROM, 4096 - 512 bytes. -/
def romMax : Nat := 3584

/-- `TIMER_HZ` (R6, R225): the rate of the timer clock. -/
def timerHz : Nat := 60

/-- `INSTR_HZ` (R7, R228, D18) as `State.reset` has it: 540, the upper of the document's two example rates, which is nine
instruction steps to a timer step. DESIGN CHOICE, log 2: the rate is a parameter, and no statement rests on 540. -/
def instrHz : Nat := 540

/-- `FONT` (R24, D10): the 80 font bytes, glyph `d` at 5*d to 5*d + 4. The document does not give them.
PRESUMED: the default table of R24, from general knowledge. Unsafe, log 5: no statement rests on these bytes. -/
def font : List Byte :=
  [0xF0, 0x90, 0x90, 0x90, 0xF0,  0x20, 0x60, 0x20, 0x20, 0x70,
   0xF0, 0x10, 0xF0, 0x80, 0xF0,  0xF0, 0x10, 0xF0, 0x10, 0xF0] ++
  [0x90, 0x90, 0xF0, 0x10, 0x10,  0xF0, 0x80, 0xF0, 0x10, 0xF0,
   0xF0, 0x80, 0xF0, 0x90, 0xF0,  0xF0, 0x10, 0x20, 0x40, 0x40] ++
  [0xF0, 0x90, 0xF0, 0x90, 0xF0,  0xF0, 0x90, 0xF0, 0x10, 0xF0,
   0xF0, 0x90, 0xF0, 0x90, 0x90,  0xE0, 0x90, 0xE0, 0x90, 0xE0] ++
  [0xF0, 0x80, 0x80, 0x80, 0xF0,  0xE0, 0x90, 0x90, 0x90, 0xE0,
   0xF0, 0x80, 0xF0, 0x80, 0xF0,  0xF0, 0x80, 0xF0, 0x80, 0x80]

/-- The random source (R144, D14): the byte it gives at the `n`-th draw for which the host supplied none. A free
value: it has no body, so nothing can be proved of it (log 4). -/
opaque randomByte : Nat → Byte

/-- The free schedule (R228, D15, D18): the `n`-th event the outside issues. A free value: it has no body, so what is
proved of a run under it holds for every sequence of events, of both ticks for ever among them (log 2). -/
opaque scheduled : Nat → Sys2Proof.Machine.Event

end Sys2Proof.Config
end

