-- ==== Sys2Proof/Machine/State.lean ====
section
/-! DEFINITION. The state of the machine (R20 to R38), the inputs its steps read, and the reasons a step could stop. -/

namespace Sys2Proof.Machine

/-- The listed bytes of the 4096-byte memory (R23), addresses strictly rising, none equal to what its address holds
after reset. An address that is not listed reads as `Memory.initial` says. -/
abbrev Memory := List Host.Cell

/-- The five fault causes of R211. -/
inductive FaultCause where
  | fetchOutOfBounds
  | stackUnderflow
  | stackOverflow
  | memOutOfBounds
  | keyIndexOutOfRange
  deriving DecidableEq, Repr

/-- A latched fault: its cause and the 16-bit information word (R31, R211). -/
structure LatchedFault where
  cause : FaultCause
  info : Word
  deriving DecidableEq, Repr

/-- How the outside drives the two clocks where it has scheduled nothing in particular: the two ways R228 gives a model
to take the sequence of events (log 2). -/
inductive Clocks where
  /-- The fixed schedule derived from `INSTR_HZ`: `instrHz` instruction steps to every 60 timer steps, for ever. `phase`
  counts up 60 an instruction tick and down `instrHz` a timer tick. -/
  | rate (instrHz phase : Nat)
  /-- The free schedule: the events `Config.scheduled` gives from its `n`-th on. -/
  | free (n : Nat)
  deriving DecidableEq, Repr

/-- The state. The fields from `V` to `fault` are the spec's state elements (R20); `keys` to `clocks`
are the inputs of the steps, which the spec keeps outside the core (R32, R33; logs 2, 3, 4). -/
structure State where
  /-- the general registers (R21) -/
  V : Vector Byte 16
  /-- memory (R23) -/
  mem : Memory
  /-- the video buffer (R25) -/
  vb : Frame
  /-- the call stack (R26) -/
  stack : Vector Word 16
  /-- the stack pointer, 0 to 15 (R26) -/
  sp : Fin 16
  /-- the index register (R27) -/
  I : Word
  /-- the program counter (R28) -/
  pc : Word
  /-- the delay timer (R29) -/
  DT : Byte
  /-- the sound timer (R29) -/
  ST : Byte
  /-- the redraw flag (R30) -/
  redraw : Bool
  /-- the fault register (R31) -/
  fault : Option LatchedFault
  /-- the key level the host drives, bit `k` for key `k` (R32, R231) -/
  keys : BitVec 16
  /-- the random bytes the host has supplied and no instruction has taken, next first (R33, R144) -/
  rnd : List Byte
  /-- how many random bytes have been taken (the model's own counter, log 4) -/
  drawn : Nat
  /-- the events the outside has scheduled to come before those of its clocks, next first (log 2) -/
  pending : List Event
  /-- where the events after those come from (R228, log 2) -/
  clocks : Clocks
  deriving DecidableEq, Repr

/-- Why a run could stop with a fault. No meaning and not `step` ends so: a fault of the spec is a state with its cause
latched (R216, R217, log 1), where instruction steps and timer steps change nothing until reset. -/
inductive Fault where
  /-- `Safety.outcome` alone raises it: the reading of a latched state as the fault outcome R217 speaks of. Safe. -/
  | latched (f : LatchedFault)
  deriving DecidableEq, Repr

/-- Why an instruction could be refused. -/
inductive Refusal where
  /-- An instruction without a meaning; `exec` alone may raise it, and has no such arm. Safe. -/
  | notModelled (mnemonic : String)
  deriving DecidableEq, Repr

/-- The machine right after reset (R37, R250). Memory lists nothing, so it holds FONT and zeros. The five input fields
have no reset value in the spec: no key driven, no random byte supplied or taken, no event listed, both clocks running at
the rate `Config.instrHz` (DESIGN CHOICE, logs 2, 3, 4). -/
def State.reset : State where
  V := Vector.replicate 16 0x00#8
  mem := []
  vb := Vector.replicate 32 0#64
  stack := Vector.replicate 16 0x0000#16
  sp := 0
  I := 0x0000#16
  pc := 0x0200#16
  DT := 0x00#8
  ST := 0x00#8
  redraw := false
  fault := none
  keys := 0x0000#16
  rnd := []
  drawn := 0
  pending := []
  clocks := .rate Config.instrHz 0

end Sys2Proof.Machine
end

