-- ==== Sys2Proof/Machine/Ops.lean ====
section
/-! DEFINITION. The named operations over memory and registers, the control signals (R15, R94) and taking a fault
(R13, R216, R217). -/

namespace Sys2Proof.Machine

/-- What the meaning of an instruction, and a step, answers. -/
abbrev Result := Host.Outcome State Fault Refusal

/-! ### Memory (R12, R23, R50 to R58) -/

/-- What an address that is not listed reads as: its contents after reset (R24, R37, R58), the font at 0x000 to 0x04F
and zero above. -/
def Memory.initial (a : Nat) : Byte :=
  if a < 0x50 then Config.font.getD a 0x00#8 else 0x00#8

/-- The byte at address `a` (R12: `MemRead(a, 1)`, where `a` is at most 0xFFF). -/
def Memory.read : Memory → Nat → Byte
  | [], a => Memory.initial a
  | (k, b) :: rest, a => if k = a then b else Memory.read rest a

/-- Memory with nothing listed at address `a`. -/
def Memory.erase : Memory → Nat → Memory
  | [], _ => []
  | (k, c) :: rest, a => if k = a then Memory.erase rest a else (k, c) :: Memory.erase rest a

/-- List `b` at address `a`, in the order of the addresses. -/
def Memory.insert : Memory → Nat → Byte → Memory
  | [], a, b => [(a, b)]
  | (k, c) :: rest, a, b => if a < k then (a, b) :: (k, c) :: rest else (k, c) :: Memory.insert rest a b

/-- Store `b` at address `a` (R12: `MemWrite(a, 1, b)`, where `a` is at most 0xFFF), keeping the canonical form: what
`a` reads as unlisted is not listed. -/
def Memory.write (m : Memory) (a : Nat) (b : Byte) : Memory :=
  if b = Memory.initial a then Memory.erase m a else Memory.insert (Memory.erase m a) a b

/-- Store `bytes` at `a`, `a + 1`, ... (R52: the first at the lowest address). -/
def Memory.storeBytes : Memory → Nat → List Byte → Memory
  | m, _, [] => m
  | m, a, b :: bs => Memory.storeBytes (Memory.write m a b) (a + 1) bs

/-- The `n` bytes at `a`, `a + 1`, ... -/
def Memory.loadBytes (m : Memory) : Nat → Nat → List Byte
  | _, 0 => []
  | a, n + 1 => Memory.read m a :: Memory.loadBytes m (a + 1) n

/-- The canonical form from address `lo` up: addresses strictly rising, below 0x1000, no entry equal to what its
address reads as unlisted. -/
def Memory.wfFrom : Nat → Memory → Bool
  | _, [] => true
  | lo, (k, b) :: rest =>
    decide (lo ≤ k) && decide (k < 0x1000) && decide (b ≠ Memory.initial k) && Memory.wfFrom (k + 1) rest

/-- The canonical form of memory. -/
def Memory.wf (m : Memory) : Bool := Memory.wfFrom 0 m

/-! ### Registers (R21) -/

/-- `V[r]` -/
def State.reg (s : State) (r : Reg) : Byte := s.V[r]

/-- `V[r] <- b` -/
def State.setReg (s : State) (r : Reg) (b : Byte) : State := { s with V := s.V.set r b }

/-- `VF`, the register that doubles as the flag (R22). -/
def VF : Reg := 15

/-- A flag as the byte an instruction writes to `VF`: 0 or 1 (R22). -/
def flagByte (f : Bool) : Byte := if f then 0x01#8 else 0x00#8

/-- The result first, the flag last (R14, R130, R137): with `x = 15` the flag stays. -/
def State.setRegThenFlag (s : State) (x : Reg) (result : Byte) (f : Bool) : State :=
  (s.setReg x result).setReg VF (flagByte f)

/-- The registers in rising order. -/
def allRegs : List Reg := [0, 1, 2, 3, 4, 5, 6, 7, 8, 9, 10, 11, 12, 13, 14, 15]

/-- `V[i] <- mem[a + i]` for each register of the list. -/
def loadRegs (m : Memory) (a : Nat) : List Reg → Vector Byte 16 → Vector Byte 16
  | [], v => v
  | r :: rs, v => loadRegs m a rs (v.set r (Memory.read m (a + r.val)))

/-! ### The stack unit (R26) -/

/-- Push: the pointer is incremented, then the entry written (R113). Called with `sp` below 15. -/
def State.push (s : State) (w : Word) : State :=
  let top : Fin 16 := s.sp + 1
  { s with sp := top, stack := s.stack.set top w }

/-- The entry `stack[sp]` (R111). -/
def State.top (s : State) : Word := s.stack[s.sp]

/-- Pop: the pointer is decremented, the entry stays in place (R111, D23). Called with `sp` above 0. -/
def State.pop (s : State) : State := { s with sp := s.sp - 1 }

/-! ### The random input (R144, R234) -/

/-- The byte the next `Cxkk` takes: the next one the host supplied, else the free value of that draw (log 4). -/
def State.randomByte (s : State) : Byte :=
  match s.rnd with
  | b :: _ => b
  | [] => Config.randomByte s.drawn

/-- One byte of the random input is consumed (R144). -/
def State.consumeRandom (s : State) : State := { s with rnd := s.rnd.tail, drawn := s.drawn + 1 }

/-! ### Control signals (R15, R94) -/

/-- The five control signals of R15. -/
inductive Signal where
  | advance
  | advanceAndRedraw
  | skip
  | jump (target : Word)
  | block
  deriving DecidableEq, Repr

/-- Apply a signal, `pc` being the address of the instruction just executed (R94). -/
def applySignal : Signal → State → State
  | .advance, s => { s with pc := s.pc + 2 }
  | .advanceAndRedraw, s => { s with pc := s.pc + 2, redraw := true }
  | .skip, s => { s with pc := s.pc + 4 }
  | .jump target, s => { s with pc := target }
  | .block, s => s

/-- `Skip` where the condition holds, else `Advance` (R93). -/
def skipIf (c : Bool) : Signal := if c then .skip else .advance

/-- End a step that does not fault: the redraw flag is cleared and the signal applied (R90, R91). `s` is the state with
the instruction's own writes done, which never touch the flag. -/
def complete (sig : Signal) (s : State) : Result := .next (applySignal sig { s with redraw := false })

/-! ### Taking a fault (R13, R210 to R217)

There is no handler: nothing is saved, no mode changes, `pc` stays. There is no return either (R220): a latched fault is
left by reset alone. -/

/-- Take a fault from the state before the step: the cause and the information word are latched and nothing else
changes (R216, R217). -/
def takeFault (cause : FaultCause) (info : Word) (s : State) : Result :=
  .next { s with fault := some ⟨cause, info⟩ }

/-- The code of a cause (R211, D3). -/
def FaultCause.code : FaultCause → Nat
  | .fetchOutOfBounds => 1
  | .stackUnderflow => 2
  | .stackOverflow => 3
  | .memOutOfBounds => 4
  | .keyIndexOutOfRange => 5

end Sys2Proof.Machine
end

