-- ==== Sys2Proof/Machine/Operands.lean ====
section
/-! DEFINITION. The operand forms: extension to 16 bits (R82), the data run at `I` (R160), the register group `V0` to
`Vx` (R165, R166), decimal digits (R164), keys (R190) and sprites (R181 to R183). -/

namespace Sys2Proof.Machine

/-- `zext_16` (R10, R82). -/
def zext16 (b : Byte) : Word := b.setWidth 16

/-! ### The data run at `I` (R160, R214) -/

/-- Some address of the `len` bytes at `I` is above 0xFFF; no wrap-around (R56, R160). No byte, no fault. -/
def State.dataOutOfRange (s : State) (len : Nat) : Bool :=
  decide (0 < len ∧ 0xFFF < s.I.toNat + (len - 1))

/-- The information word of `MemOutOfBounds`: the lowest address out of range, `max(I, 0x1000)` (R56, R211). -/
def State.dataFaultAddress (s : State) : Word := BitVec.ofNat 16 (max s.I.toNat 0x1000)

/-- The number of registers in `V0` to `Vx`. -/
def groupSize (x : Reg) : Nat := x.val + 1

/-- The registers `V0` to `Vx`, in rising order. -/
def groupRegs (x : Reg) : List Reg := allRegs.take (groupSize x)

/-- The bytes `Fx55` stores: `V0` to `Vx`, lowest register first (R52, R165). -/
def State.groupBytes (s : State) (x : Reg) : List Byte := (groupRegs x).map s.reg

/-- The three decimal digits of a byte, hundreds first (R164). -/
def decimalDigits (v : Byte) : List Byte :=
  [BitVec.ofNat 8 (v.toNat / 100), BitVec.ofNat 8 (v.toNat / 10 % 10), BitVec.ofNat 8 (v.toNat % 10)]

/-- The address of the glyph of `v`: the whole byte times the glyph size 5 (R163, D27). -/
def glyphAddress (v : Byte) : Word := 5#16 * zext16 v

/-! ### Keys (R190) -/

/-- Key `k` is pressed. -/
def State.keyPressed (s : State) (k : Nat) : Bool := s.keys.getLsbD k

/-- The lowest-numbered pressed key, if any key is pressed (R194). -/
def State.lowestKey (s : State) : Option Nat := (List.range 16).find? s.keyPressed

/-! ### Sprites (R181 to R183) -/

/-- The column of the origin: `Vx mod 64` (R183). -/
def originColumn (v : Byte) : Nat := v.toNat % 64

/-- The row of the origin: `Vy mod 32` (R183). -/
def originRow (v : Byte) : Nat := v.toNat % 32

/-- The cells that columns 0 to `n - 1` of a sprite byte light in a display row, the byte's column 0 at display column
`x0`. Column `c` is bit `7 - c` (R182, D11, log 6) and is dropped where `x0 + c` is above 63 (R183). -/
def spriteColumns (b : Byte) (x0 : Nat) : Nat → PixelRow
  | 0 => 0#64
  | c + 1 =>
    (if b.getLsbD (7 - c) && decide (x0 + c ≤ 63) then 1#64 <<< (x0 + c) else 0#64) ||| spriteColumns b x0 c

/-- The cells of a display row that a sprite byte toggles: all eight columns. -/
def spriteRow (b : Byte) (x0 : Nat) : PixelRow := spriteColumns b x0 8

/-- Toggle the sprite's bytes into the display rows `y`, `y + 1`, ...; rows below the display are dropped (R183). -/
def drawSprite (x0 : Nat) : Nat → List Byte → Frame → Frame
  | _, [], vb => vb
  | y, b :: bs, vb =>
    drawSprite x0 (y + 1) bs (if h : y < 32 then vb.set y (vb[y] ^^^ spriteRow b x0) else vb)

/-- The cell of column `px` in row `py` is lit (R25). -/
def Frame.pixel (vb : Frame) (px py : Nat) : Bool :=
  if h : py < 32 then vb[py].getLsbD px else false

end Sys2Proof.Machine
end

