-- ==== Sys2Proof/Machine/Flags.lean ====
section
/-! DEFINITION. The six flag computations of R22, each on the operands as they were before the instruction (R130). -/

namespace Sys2Proof.Machine

/-- `8xy4`: the sum does not fit a byte (R138, R139). -/
def carry (a b : Byte) : Bool := decide (255 < a.toNat + b.toNat)

/-- `8xy5`, `8xy7`: the subtraction borrows nothing, equality included (R138, R140, R142). -/
def noBorrow (minuend subtrahend : Byte) : Bool := decide (subtrahend.toNat ≤ minuend.toNat)

/-- `8xy6`: the bit shifted out to the right (R141). -/
def bitOutRight (a : Byte) : Bool := a.getLsbD 0

/-- `8xyE`: the bit shifted out to the left (R143). -/
def bitOutLeft (a : Byte) : Bool := a.getLsbD 7

/-- `Dxyn`: some sprite cell that is not dropped falls on a cell lit before the instruction (R181, R184). -/
def collides (x0 : Nat) (vb : Frame) : Nat → List Byte → Bool
  | _, [] => false
  | y, b :: bs =>
    (if h : y < 32 then decide (vb[y] &&& spriteRow b x0 ≠ 0#64) else false) || collides x0 vb (y + 1) bs

end Sys2Proof.Machine
end

