-- ==== Sys2Proof/Machine/Alu.lean ====
section
/-! DEFINITION. Register load, arithmetic, logic, shift and random instructions (R130 to R144). Operands are read from
the state before the instruction, the flag is written last (R14, R137). -/

namespace Sys2Proof.Machine

/-- `6xkk` LD Vx, kk (R131). -/
def execLdImm (x : Reg) (kk : Byte) (s : State) : Result := complete .advance (s.setReg x kk)

/-- `7xkk` ADD Vx, kk (R132): no flag. -/
def execAddImm (x : Reg) (kk : Byte) (s : State) : Result := complete .advance (s.setReg x (s.reg x + kk))

/-- `8xy0` LD Vx, Vy (R133). -/
def execLdReg (x y : Reg) (s : State) : Result := complete .advance (s.setReg x (s.reg y))

/-- `8xy1` OR Vx, Vy (R134): no flag. -/
def execOrReg (x y : Reg) (s : State) : Result := complete .advance (s.setReg x (s.reg x ||| s.reg y))

/-- `8xy2` AND Vx, Vy (R135): no flag. -/
def execAndReg (x y : Reg) (s : State) : Result := complete .advance (s.setReg x (s.reg x &&& s.reg y))

/-- `8xy3` XOR Vx, Vy (R136): no flag. -/
def execXorReg (x y : Reg) (s : State) : Result := complete .advance (s.setReg x (s.reg x ^^^ s.reg y))

/-- `8xy4` ADD Vx, Vy (R139). -/
def execAddReg (x y : Reg) (s : State) : Result :=
  complete .advance (s.setRegThenFlag x (s.reg x + s.reg y) (carry (s.reg x) (s.reg y)))

/-- `8xy5` SUB Vx, Vy (R140). -/
def execSubReg (x y : Reg) (s : State) : Result :=
  complete .advance (s.setRegThenFlag x (s.reg x - s.reg y) (noBorrow (s.reg x) (s.reg y)))

/-- `8xy6` SHR Vx (R141): `y` is ignored. -/
def execShr (x _y : Reg) (s : State) : Result :=
  complete .advance (s.setRegThenFlag x (s.reg x >>> 1) (bitOutRight (s.reg x)))

/-- `8xy7` SUBN Vx, Vy (R142). -/
def execSubnReg (x y : Reg) (s : State) : Result :=
  complete .advance (s.setRegThenFlag x (s.reg y - s.reg x) (noBorrow (s.reg y) (s.reg x)))

/-- `8xyE` SHL Vx (R143): `y` is ignored. -/
def execShl (x _y : Reg) (s : State) : Result :=
  complete .advance (s.setRegThenFlag x (s.reg x <<< 1) (bitOutLeft (s.reg x)))

/-- `Cxkk` RND Vx, kk (R144): one byte of the random input, under the mask. -/
def execRnd (x : Reg) (kk : Byte) (s : State) : Result :=
  complete .advance (s.consumeRandom.setReg x (s.randomByte &&& kk))

end Sys2Proof.Machine
end

