-- ==== Sys2Proof/Machine/ControlFlow.lean ====
section
/-! DEFINITION. Control transfer (R110 to R119) and the no-op of an unknown word (R120). Targets are not checked here:
a bad one faults at the next fetch (R57, R110). -/

namespace Sys2Proof.Machine

/-- `00EE` RET (R111): return to the popped address, or fault on an empty stack. -/
def execRet (s : State) : Result :=
  if s.sp = 0 then takeFault .stackUnderflow s.pc s
  else complete (.jump s.top) s.pop

/-- `1nnn` JP (R112). -/
def execJp (nnn : Word) (s : State) : Result := complete (.jump nnn) s

/-- `2nnn` CALL (R113): push the address of the next instruction (D4, log 13), or fault on a full stack. -/
def execCall (nnn : Word) (s : State) : Result :=
  if s.sp = 15 then takeFault .stackOverflow s.pc s
  else complete (.jump nnn) (s.push (s.pc + 2))

/-- `3xkk` SE Vx, kk (R114). -/
def execSeImm (x : Reg) (kk : Byte) (s : State) : Result := complete (skipIf (s.reg x == kk)) s

/-- `4xkk` SNE Vx, kk (R115). -/
def execSneImm (x : Reg) (kk : Byte) (s : State) : Result := complete (skipIf (s.reg x != kk)) s

/-- `5xy0` SE Vx, Vy (R116). -/
def execSeReg (x y : Reg) (s : State) : Result := complete (skipIf (s.reg x == s.reg y)) s

/-- `9xy0` SNE Vx, Vy (R117). -/
def execSneReg (x y : Reg) (s : State) : Result := complete (skipIf (s.reg x != s.reg y)) s

/-- `Bnnn` JP V0, nnn (R119): a 16-bit sum, not cut to 12 bits (D28, log 16). -/
def execJpV0 (nnn : Word) (s : State) : Result := complete (.jump (nnn + zext16 (s.reg 0))) s

/-- A word that matches no pattern (R120). -/
def execUnknown (s : State) : Result := complete .advance s

end Sys2Proof.Machine
end

