-- ==== Sys2Proof/Machine/Display.lean ====
section
/-! DEFINITION. Display instructions (R180 to R186). -/

namespace Sys2Proof.Machine

/-- `00E0` CLS (R180): every cell false; the signal is `Advance`, so `redraw` is 0 after it (D6, log 7). -/
def execCls (s : State) : Result := complete .advance { s with vb := Vector.replicate 32 0#64 }

/-- `Dxyn` DRW Vx, Vy, n (R181): all `n` sprite bytes must exist, those of dropped rows too (D19, log 17); coordinates
come from the registers before the instruction (R185); the collision flag is written last. -/
def execDrw (x y : Reg) (n : Nat) (s : State) : Result :=
  if s.dataOutOfRange n then takeFault .memOutOfBounds s.dataFaultAddress s
  else
    let sprite := Memory.loadBytes s.mem s.I.toNat n
    let x0 := originColumn (s.reg x)
    let y0 := originRow (s.reg y)
    complete .advanceAndRedraw
      (State.setReg { s with vb := drawSprite x0 y0 sprite s.vb } VF (flagByte (collides x0 s.vb y0 sprite)))

end Sys2Proof.Machine
end

