-- ==== Sys2Proof/Machine/IndexMemory.lean ====
section
/-! DEFINITION. Index register and memory instructions (R160 to R166). The bounds of the whole data run are checked
before any read or write (R160, R216); `I` is never changed by an access (D7, log 8). -/

namespace Sys2Proof.Machine

/-- `Annn` LD I, nnn (R161). -/
def execLdI (nnn : Word) (s : State) : Result := complete .advance { s with I := nnn }

/-- `Fx1E` ADD I, Vx (R162): modulo 65536, no flag (D8, log 15). -/
def execAddIVx (x : Reg) (s : State) : Result := complete .advance { s with I := s.I + zext16 (s.reg x) }

/-- `Fx29` LD F, Vx (R163). -/
def execLdFVx (x : Reg) (s : State) : Result := complete .advance { s with I := glyphAddress (s.reg x) }

/-- `Fx33` LD B, Vx (R164). -/
def execLdBVx (x : Reg) (s : State) : Result :=
  if s.dataOutOfRange 3 then takeFault .memOutOfBounds s.dataFaultAddress s
  else complete .advance { s with mem := Memory.storeBytes s.mem s.I.toNat (decimalDigits (s.reg x)) }

/-- `Fx55` LD [I], Vx (R165). -/
def execLdMemVx (x : Reg) (s : State) : Result :=
  if s.dataOutOfRange (groupSize x) then takeFault .memOutOfBounds s.dataFaultAddress s
  else complete .advance { s with mem := Memory.storeBytes s.mem s.I.toNat (s.groupBytes x) }

/-- `Fx65` LD Vx, [I] (R166). -/
def execLdVxMem (x : Reg) (s : State) : Result :=
  if s.dataOutOfRange (groupSize x) then takeFault .memOutOfBounds s.dataFaultAddress s
  else complete .advance { s with V := loadRegs s.mem s.I.toNat (groupRegs x) s.V }

end Sys2Proof.Machine
end

