-- ==== Sys2Proof/Machine/KeysTimers.lean ====
section
/-! DEFINITION. Keyboard and timer instructions (R190 to R196). -/

namespace Sys2Proof.Machine

/-- `Ex9E` SKP Vx (R191): the whole byte is the key number; above 15 it faults (D5, log 18). -/
def execSkp (x : Reg) (s : State) : Result :=
  if 15 < (s.reg x).toNat then takeFault .keyIndexOutOfRange (zext16 (s.reg x)) s
  else complete (skipIf (s.keyPressed (s.reg x).toNat)) s

/-- `ExA1` SKNP Vx (R192). -/
def execSknp (x : Reg) (s : State) : Result :=
  if 15 < (s.reg x).toNat then takeFault .keyIndexOutOfRange (zext16 (s.reg x)) s
  else complete (skipIf (!s.keyPressed (s.reg x).toNat)) s

/-- `Fx07` LD Vx, DT (R193). -/
def execLdVxDT (x : Reg) (s : State) : Result := complete .advance (s.setReg x s.DT)

/-- `Fx0A` LD Vx, K (R194): the lowest-numbered pressed key, or `Block` where none is pressed (R95). -/
def execLdVxK (x : Reg) (s : State) : Result :=
  match s.lowestKey with
  | some k => complete .advance (s.setReg x (BitVec.ofNat 8 k))
  | none => complete .block s

/-- `Fx15` LD DT, Vx (R195). -/
def execLdDTVx (x : Reg) (s : State) : Result := complete .advance { s with DT := s.reg x }

/-- `Fx18` LD ST, Vx (R196). -/
def execLdSTVx (x : Reg) (s : State) : Result := complete .advance { s with ST := s.reg x }

end Sys2Proof.Machine
end

