-- ==== Sys2Proof/Syntax.lean ====
section
/-! DEFINITION. The instructions: one constructor per row of spec/opcode_table.json, in the order of R86. A word that
matches no row is no instruction of this type: the decoder rejects it by name and the step runs the no-op of R120
(log 21). -/

namespace Sys2Proof

/-- The 34 instructions of R86. `x`, `y` are register numbers, `kk` the immediate byte, `nnn` the 12-bit address
zero-extended to 16 bits (R82), `n` the sprite height. -/
inductive Instr where
  /-- `00E0` CLS (R180) -/
  | cls
  /-- `00EE` RET (R111) -/
  | ret
  /-- `1nnn` JP nnn (R112) -/
  | jp (nnn : Word)
  /-- `2nnn` CALL nnn (R113) -/
  | call (nnn : Word)
  /-- `3xkk` SE Vx, kk (R114) -/
  | seImm (x : Reg) (kk : Byte)
  /-- `4xkk` SNE Vx, kk (R115) -/
  | sneImm (x : Reg) (kk : Byte)
  /-- `5xy0` SE Vx, Vy (R116) -/
  | seReg (x y : Reg)
  /-- `6xkk` LD Vx, kk (R131) -/
  | ldImm (x : Reg) (kk : Byte)
  /-- `7xkk` ADD Vx, kk (R132) -/
  | addImm (x : Reg) (kk : Byte)
  /-- `8xy0` LD Vx, Vy (R133) -/
  | ldReg (x y : Reg)
  /-- `8xy1` OR Vx, Vy (R134) -/
  | orReg (x y : Reg)
  /-- `8xy2` AND Vx, Vy (R135) -/
  | andReg (x y : Reg)
  /-- `8xy3` XOR Vx, Vy (R136) -/
  | xorReg (x y : Reg)
  /-- `8xy4` ADD Vx, Vy (R139) -/
  | addReg (x y : Reg)
  /-- `8xy5` SUB Vx, Vy (R140) -/
  | subReg (x y : Reg)
  /-- `8xy6` SHR Vx (R141); `y` is encoded and ignored -/
  | shr (x y : Reg)
  /-- `8xy7` SUBN Vx, Vy (R142) -/
  | subnReg (x y : Reg)
  /-- `8xyE` SHL Vx (R143); `y` is encoded and ignored -/
  | shl (x y : Reg)
  /-- `9xy0` SNE Vx, Vy (R117) -/
  | sneReg (x y : Reg)
  /-- `Annn` LD I, nnn (R161) -/
  | ldI (nnn : Word)
  /-- `Bnnn` JP V0, nnn (R119) -/
  | jpV0 (nnn : Word)
  /-- `Cxkk` RND Vx, kk (R144) -/
  | rnd (x : Reg) (kk : Byte)
  /-- `Dxyn` DRW Vx, Vy, n (R181) -/
  | drw (x y : Reg) (n : Nat)
  /-- `Ex9E` SKP Vx (R191) -/
  | skp (x : Reg)
  /-- `ExA1` SKNP Vx (R192) -/
  | sknp (x : Reg)
  /-- `Fx07` LD Vx, DT (R193) -/
  | ldVxDT (x : Reg)
  /-- `Fx0A` LD Vx, K (R194) -/
  | ldVxK (x : Reg)
  /-- `Fx15` LD DT, Vx (R195) -/
  | ldDTVx (x : Reg)
  /-- `Fx18` LD ST, Vx (R196) -/
  | ldSTVx (x : Reg)
  /-- `Fx1E` ADD I, Vx (R162) -/
  | addIVx (x : Reg)
  /-- `Fx29` LD F, Vx (R163) -/
  | ldFVx (x : Reg)
  /-- `Fx33` LD B, Vx (R164) -/
  | ldBVx (x : Reg)
  /-- `Fx55` LD [I], Vx (R165) -/
  | ldMemVx (x : Reg)
  /-- `Fx65` LD Vx, [I] (R166) -/
  | ldVxMem (x : Reg)
  deriving DecidableEq, Repr

end Sys2Proof
end

