-- ==== Sys2Proof/Machine/Fetch.lean ====
section
/-! DEFINITION. Instruction fetch (R51, R57, R80). -/

namespace Sys2Proof.Machine

/-- Both bytes of the word at `pc` exist: `pc <= 0xFFE` (R57). -/
def State.canFetch (s : State) : Bool := decide (s.pc.toNat ≤ 0xFFE)

/-- The two bytes at `pc` and `pc + 1`, even or odd (R51, R53). -/
def State.fetchBytes (s : State) : List Byte :=
  [Memory.read s.mem s.pc.toNat, Memory.read s.mem (s.pc.toNat + 1)]

/-- The decoder on the bytes at `pc`. -/
def State.fetch (s : State) : Except DecodeReject (Instr × List Byte) := decode s.fetchBytes

/-- Store a word where the fetch reads it, high byte first (R51). -/
def State.placeWord (s : State) (w : Word) : State :=
  { s with mem := Memory.storeBytes s.mem s.pc.toNat [highByte w, lowByte w] }

end Sys2Proof.Machine
end

