-- ==== Sys2Proof/Machine/Events.lean ====
section
/-! DEFINITION. The events that change the state (R8): the instruction step (R90), the timer step (R226) and the host
operations reset, ROM load and key update (R238 to R240). -/

namespace Sys2Proof.Machine

/-- A fault is latched: the machine is halted until reset (R217). -/
def State.halted (s : State) : Bool := s.fault.isSome

/-- One instruction step (R90): nothing where halted, a fault where the word does not exist, else the instruction the
word at `pc` decodes to, or the no-op where it decodes to none (R87, R120). -/
def instrStep (s : State) : Result :=
  if s.halted then .next s
  else if s.canFetch then
    match s.fetch with
    | .ok (i, _) => exec i s
    | .error _ => execUnknown s
  else takeFault .fetchOutOfBounds s.pc s

/-- One tick of a timer: down by one, staying at zero (R225). -/
def countDown (t : Byte) : Byte := if t = 0x00#8 then 0x00#8 else t - 1

/-- One timer step (R226): both timers; nothing where halted. -/
def timerStep (s : State) : State :=
  if s.halted then s else { s with DT := countDown s.DT, ST := countDown s.ST }

/-- The host drives a new key level (R240). -/
def driveKeys (keys : BitVec 16) (s : State) : State := { s with keys := keys }

/-- A ROM is refused: it is longer than 3584 bytes. This is the report `RomTooLarge` to the host (R239, D12). -/
def romTooLarge (bytes : List Byte) : Bool := decide (Config.romMax < bytes.length)

/-- Load a ROM at 0x200 (R239): a ROM that is too large changes nothing; nothing but its bytes of memory changes. -/
def romLoad (bytes : List Byte) (s : State) : State :=
  if romTooLarge bytes then s
  else { s with mem := Memory.storeBytes s.mem Config.romBase bytes }

/-- The host resets the machine (R238, R250): every state element is as after reset. What the outside drives and has
scheduled is not the core's, and stays (R32, R33). -/
def hostReset (s : State) : State :=
  { State.reset with keys := s.keys, rnd := s.rnd, drawn := s.drawn, pending := s.pending, clocks := s.clocks }

/-- The next event the clocks issue, and the clocks after it (R228). At a rate, a timer tick is due once the instruction
ticks so far have filled its share. -/
def Clocks.next : Clocks → Event × Clocks
  | .rate hz phase => if hz ≤ phase then (.timerTick, .rate hz (phase - hz)) else (.instrTick, .rate hz (phase + Config.timerHz))
  | .free n => (Config.scheduled n, .free (n + 1))

/-- The next event: the first one listed, else the clocks'. -/
def State.nextEvent (s : State) : Event :=
  match s.pending with
  | [] => s.clocks.next.1
  | e :: _ => e

/-- The state with its next event taken from the schedule. -/
def State.takeEvent (s : State) : State :=
  match s.pending with
  | [] => { s with clocks := s.clocks.next.2 }
  | _ :: later => { s with pending := later }

/-- Perform one event. -/
def performEvent : Event → State → Result
  | .instrTick, s => instrStep s
  | .timerTick, s => .next (timerStep s)
  | .driveKeys keys, s => .next (driveKeys keys s)
  | .romLoad bytes, s => .next (romLoad bytes s)
  | .reset, s => .next (hostReset s)

end Sys2Proof.Machine
end

