-- ==== Sys2Proof/Machine/Step.lean ====
section
/-! DEFINITION. One step of the whole system: the next event of the schedule (R8, R228, log 2). -/

namespace Sys2Proof.Machine

/-- Perform the next event: the first one listed, and where none is listed the next one of the clocks. -/
def step (s : State) : Host.Outcome State Fault Refusal :=
  performEvent s.nextEvent s.takeEvent

/-- `s` with an instruction placed where the next step fetches it. The word goes to the two bytes at `pc` (R51). So
that the very next step runs it, `pc` is moved to 0x200 where no word can be fetched, a latched fault is taken away, and
an instruction tick is put first where another event is, or may be, the next (log 25). -/
def State.withFetchWord (s : State) (nbits w : Nat) : State :=
  let ready : State :=
    { s with
      pc := if s.canFetch then s.pc else 0x0200#16
      fault := none
      pending := match s.pending, s.clocks with
        | [], .rate hz phase => if hz ≤ phase then [.instrTick] else []
        | later, _ => .instrTick :: later }
  ready.placeWord (BitVec.ofNat 16 (w % 2 ^ nbits))

end Sys2Proof.Machine
end

