-- ==== Sys2Proof/Machine/Ports.lean ====
section
/-! DEFINITION. The output ports of R230, functions of the state. -/

namespace Sys2Proof.Machine

/-- `beep`: the sound timer is above zero; not a stored flag (R229, D16). -/
def State.beep (s : State) : Bool := decide (0 < s.ST.toNat)

/-- `vb[k]`, `k = y*64 + x`: the read-only view of the video buffer (R25, R232). -/
def State.vbPort (s : State) (k : Nat) : Bool := Frame.pixel s.vb (k % 64) (k / 64)

/-- The cause code on the fault output, 0 for none (R211, R235). -/
def State.faultCode (s : State) : Nat :=
  match s.fault with
  | none => 0
  | some f => f.cause.code

/-- The information word on the fault output. -/
def State.faultInfo (s : State) : Option Word := s.fault.map (·.info)

end Sys2Proof.Machine
end

