-- ==== Sys2Proof/Safety.lean ====
section
/-! DEFINITION. The terms claims are stated in: what running and faulted mean (R217), what an instruction leaves alone
(frames), runs and the premises of fairness (R271), and the invariant of the states a run can reach (R38). -/

namespace Sys2Proof.Machine

/-- No fault is latched: the premise R217 asks every claim to make. -/
abbrev State.Running (s : State) : Prop := s.fault = none

/-- A state read as an outcome (R217): a latched fault is a fault outcome, never a normal end. -/
def Safety.outcome (s : State) : Host.Outcome State Fault Refusal :=
  match s.fault with
  | none => .next s
  | some f => .fault (.latched f)

/-! ### Frames -/

/-- What an event may write beside `pc` and `redraw`. Nothing, unless a field says so. -/
structure Writes where
  /-- the general registers it may write -/
  regs : List Reg := []
  /-- the first address and the number of the bytes it stores -/
  stores : Nat × Nat := (0, 0)
  /-- it may write `I` -/
  index : Bool := false
  /-- it may write the video buffer -/
  display : Bool := false
  /-- it may write `sp` -/
  pointer : Bool := false
  /-- the stack entries it may write -/
  entries : List (Fin 16) := []
  /-- it may write `DT` -/
  delay : Bool := false
  /-- it may write `ST` -/
  sound : Bool := false
  /-- it may take a random byte -/
  random : Bool := false

/-- `t` is `s` but for `pc`, `redraw` and what `w` allows: every other register, every byte of memory outside the stored
ones, every other state element and every input is as it was. -/
structure Keeps (w : Writes) (s t : State) : Prop where
  regs : ∀ r : Reg, r ∉ w.regs → t.reg r = s.reg r
  memory : ∀ a : Nat, ¬(w.stores.1 ≤ a ∧ a < w.stores.1 + w.stores.2) → Memory.read t.mem a = Memory.read s.mem a
  index : w.index = false → t.I = s.I
  display : w.display = false → ∀ px py : Nat, Frame.pixel t.vb px py = Frame.pixel s.vb px py
  pointer : w.pointer = false → t.sp = s.sp
  entries : ∀ k : Fin 16, k ∉ w.entries → t.stack[k] = s.stack[k]
  delay : w.delay = false → t.DT = s.DT
  sound : w.sound = false → t.ST = s.ST
  random : w.random = false → t.rnd = s.rnd ∧ t.drawn = s.drawn
  fault : t.fault = s.fault
  keys : t.keys = s.keys
  pending : t.pending = s.pending
  clocks : t.clocks = s.clocks

/-- `t` is `s` after an instruction that may write what `w` allows: `pc` and `redraw` as given, all else kept. -/
def Ends (w : Writes) (pc : Word) (redraw : Bool) (s t : State) : Prop :=
  t.pc = pc ∧ t.redraw = redraw ∧ Keeps w s t

/-- `t` is `s` with a fault latched and nothing else changed (R216). -/
def Latches (cause : FaultCause) (info : Word) (s t : State) : Prop :=
  t = { s with fault := some ⟨cause, info⟩ }

/-! ### Words as numbers (R81, R82), written without the decoder's own slices -/

/-- The register number in bits 11 to 8. -/
def wordX (w : Word) : Reg := Fin.ofNat 16 (w.toNat / 256)

/-- The register number in bits 7 to 4. -/
def wordY (w : Word) : Reg := Fin.ofNat 16 (w.toNat / 16)

/-- The number in bits 3 to 0. -/
def wordN (w : Word) : Nat := w.toNat % 16

/-- The byte in bits 7 to 0. -/
def wordKK (w : Word) : Byte := BitVec.ofNat 8 (w.toNat % 256)

/-- The address in bits 11 to 0, as 16 bits. -/
def wordNNN (w : Word) : Word := BitVec.ofNat 16 (w.toNat % 4096)

/-- Exactly the words selected by a mask and a match decode to the instruction built from their fields (R85). -/
def EncodedAs (mask value : Word) (build : Word → Instr) : Prop :=
  ∀ w : Word, decodeWord w = .ok (build w) ↔ w &&& mask = value

/-- A row of the opcode map: mask, match, and the instruction of a word's fields (R85, R86). -/
structure OpcodeRow where
  mask : Word
  value : Word
  build : Word → Instr

/-- The opcode map of R86, in its order. -/
def opcodeMap : List OpcodeRow :=
  [⟨0xFFFF, 0x00E0, fun _ => .cls⟩,
   ⟨0xFFFF, 0x00EE, fun _ => .ret⟩,
   ⟨0xF000, 0x1000, fun w => .jp (wordNNN w)⟩,
   ⟨0xF000, 0x2000, fun w => .call (wordNNN w)⟩,
   ⟨0xF000, 0x3000, fun w => .seImm (wordX w) (wordKK w)⟩,
   ⟨0xF000, 0x4000, fun w => .sneImm (wordX w) (wordKK w)⟩,
   ⟨0xF00F, 0x5000, fun w => .seReg (wordX w) (wordY w)⟩,
   ⟨0xF000, 0x6000, fun w => .ldImm (wordX w) (wordKK w)⟩,
   ⟨0xF000, 0x7000, fun w => .addImm (wordX w) (wordKK w)⟩] ++
  [⟨0xF00F, 0x8000, fun w => .ldReg (wordX w) (wordY w)⟩,
   ⟨0xF00F, 0x8001, fun w => .orReg (wordX w) (wordY w)⟩,
   ⟨0xF00F, 0x8002, fun w => .andReg (wordX w) (wordY w)⟩,
   ⟨0xF00F, 0x8003, fun w => .xorReg (wordX w) (wordY w)⟩,
   ⟨0xF00F, 0x8004, fun w => .addReg (wordX w) (wordY w)⟩,
   ⟨0xF00F, 0x8005, fun w => .subReg (wordX w) (wordY w)⟩,
   ⟨0xF00F, 0x8006, fun w => .shr (wordX w) (wordY w)⟩,
   ⟨0xF00F, 0x8007, fun w => .subnReg (wordX w) (wordY w)⟩,
   ⟨0xF00F, 0x800E, fun w => .shl (wordX w) (wordY w)⟩,
   ⟨0xF00F, 0x9000, fun w => .sneReg (wordX w) (wordY w)⟩] ++
  [⟨0xF000, 0xA000, fun w => .ldI (wordNNN w)⟩,
   ⟨0xF000, 0xB000, fun w => .jpV0 (wordNNN w)⟩,
   ⟨0xF000, 0xC000, fun w => .rnd (wordX w) (wordKK w)⟩,
   ⟨0xF000, 0xD000, fun w => .drw (wordX w) (wordY w) (wordN w)⟩,
   ⟨0xF0FF, 0xE09E, fun w => .skp (wordX w)⟩,
   ⟨0xF0FF, 0xE0A1, fun w => .sknp (wordX w)⟩] ++
  [⟨0xF0FF, 0xF007, fun w => .ldVxDT (wordX w)⟩,
   ⟨0xF0FF, 0xF00A, fun w => .ldVxK (wordX w)⟩,
   ⟨0xF0FF, 0xF015, fun w => .ldDTVx (wordX w)⟩,
   ⟨0xF0FF, 0xF018, fun w => .ldSTVx (wordX w)⟩,
   ⟨0xF0FF, 0xF01E, fun w => .addIVx (wordX w)⟩,
   ⟨0xF0FF, 0xF029, fun w => .ldFVx (wordX w)⟩,
   ⟨0xF0FF, 0xF033, fun w => .ldBVx (wordX w)⟩,
   ⟨0xF0FF, 0xF055, fun w => .ldMemVx (wordX w)⟩,
   ⟨0xF0FF, 0xF065, fun w => .ldVxMem (wordX w)⟩]

/-- The word the fetch assembles from the two bytes at `pc`, high byte first (R51). -/
def State.fetchedWord (s : State) : Word :=
  BitVec.ofNat 16 ((Memory.read s.mem s.pc.toNat).toNat * 256 + (Memory.read s.mem (s.pc.toNat + 1)).toNat)

/-! ### The spec's tables of faults, signals and flags -/

/-- The fault the table of R211 gives an instruction in the state before it, if its condition holds. -/
def tableFault (s : State) : Instr → Option LatchedFault
  | .ret => if s.sp.val = 0 then some ⟨.stackUnderflow, s.pc⟩ else none
  | .call _ => if s.sp.val = 15 then some ⟨.stackOverflow, s.pc⟩ else none
  | .drw _ _ n =>
    if 1 ≤ n ∧ 0xFFF < s.I.toNat + n - 1 then some ⟨.memOutOfBounds, BitVec.ofNat 16 (max s.I.toNat 0x1000)⟩ else none
  | .ldBVx _ =>
    if 0xFFF < s.I.toNat + 2 then some ⟨.memOutOfBounds, BitVec.ofNat 16 (max s.I.toNat 0x1000)⟩ else none
  | .ldMemVx x | .ldVxMem x =>
    if 0xFFF < s.I.toNat + x.val then some ⟨.memOutOfBounds, BitVec.ofNat 16 (max s.I.toNat 0x1000)⟩ else none
  | .skp x | .sknp x =>
    if 15 < (s.reg x).toNat then some ⟨.keyIndexOutOfRange, BitVec.ofNat 16 (s.reg x).toNat⟩ else none
  | _ => none

/-- The signal the column of R86 and the instruction's rule give, in the state before it. -/
def tableSignal (s : State) : Instr → Signal
  | .ret => .jump s.stack[s.sp]
  | .jp nnn | .call nnn => .jump nnn
  | .jpV0 nnn => .jump (BitVec.ofNat 16 (nnn.toNat + (s.reg 0).toNat))
  | .seImm x kk => if s.reg x = kk then .skip else .advance
  | .sneImm x kk => if s.reg x = kk then .advance else .skip
  | .seReg x y => if s.reg x = s.reg y then .skip else .advance
  | .sneReg x y => if s.reg x = s.reg y then .advance else .skip
  | .skp x => if s.keys.getLsbD (s.reg x).toNat then .skip else .advance
  | .sknp x => if s.keys.getLsbD (s.reg x).toNat then .advance else .skip
  | .drw _ _ _ => .advanceAndRedraw
  | .ldVxK _ => if s.keys = 0#16 then .block else .advance
  | _ => .advance

/-- The six instructions that write `VF` as a flag (R22). -/
def writesFlag : Instr → Bool
  | .addReg _ _ | .subReg _ _ | .shr _ _ | .subnReg _ _ | .shl _ _ | .drw _ _ _ => true
  | _ => false

/-- The registers an instruction writes as its ordinary destination. -/
def destinations : Instr → List Reg
  | .ldImm x _ | .addImm x _ | .rnd x _ => [x]
  | .ldReg x _ | .orReg x _ | .andReg x _ | .xorReg x _ => [x]
  | .addReg x _ | .subReg x _ | .shr x _ | .subnReg x _ | .shl x _ => [x]
  | .ldVxDT x | .ldVxK x => [x]
  | .ldVxMem x => groupRegs x
  | _ => []

/-! ### The sprite (R181 to R183) -/

/-- An on-bit of the sprite of `Dxyn` lands on the cell of column `px` in row `py`: some row `r` below `n` and column
`c` below 8 of the sprite, whose bit is 1, are drawn there, the origin being `(Vx mod 64, Vy mod 32)`. -/
def SpriteCovers (s : State) (x y : Reg) (n px py : Nat) : Prop :=
  ∃ r c : Nat, r < n ∧ c < 8 ∧ px = (s.reg x).toNat % 64 + c ∧ py = (s.reg y).toNat % 32 + r ∧
    (Memory.read s.mem (s.I.toNat + r)).getLsbD (7 - c) = true

/-! ### Reset (R37, R250) -/

/-- Every state element has the value of R37. -/
structure HoldsResetValues (t : State) : Prop where
  regs : ∀ r : Reg, t.reg r = 0x00#8
  font : ∀ a, a < 0x50 → Memory.read t.mem a = Config.font.getD a 0x00#8
  memory : ∀ a, 0x50 ≤ a → a ≤ 0xFFF → Memory.read t.mem a = 0x00#8
  display : ∀ px py : Nat, Frame.pixel t.vb px py = false
  entries : ∀ k : Fin 16, t.stack[k] = 0x0000#16
  pointer : t.sp = 0
  index : t.I = 0x0000#16
  pc : t.pc = 0x0200#16
  delay : t.DT = 0x00#8
  sound : t.ST = 0x00#8
  redraw : t.redraw = false
  fault : t.fault = none
  beep : t.beep = false

/-! ### Runs and the premises of fairness (R228, R259, R271) -/

/-- The state after a step (`EveryStepAnswersANextState`: every step answers one). -/
def State.afterStep (s : State) : State :=
  match step s with
  | .next t => t
  | _ => s

/-- The state after `n` steps. A run has no end (R259). -/
def State.afterSteps : Nat → State → State
  | 0, s => s
  | n + 1, s => State.afterSteps n s.afterStep

/-- The first premise of R271: timer steps recur for ever; no bound is assumed on what comes between two. -/
def TimerStepsRecur (s : State) : Prop := ∀ n, ∃ m, n ≤ m ∧ (s.afterSteps m).nextEvent = .timerTick

/-- Instruction steps recur for ever (R228). -/
def InstrStepsRecur (s : State) : Prop := ∀ n, ∃ m, n ≤ m ∧ (s.afterSteps m).nextEvent = .instrTick

/-- A schedule in which both kinds of step recur for ever (R228, R252, D18). -/
structure FairSchedule (s : State) : Prop where
  timer : TimerStepsRecur s
  instr : InstrStepsRecur s

/-- The second premise of R271: the host eventually presses a key, which stands at an instruction step. -/
def KeyEventuallyPressed (s : State) : Prop :=
  ∃ m, (s.afterSteps m).nextEvent = .instrTick ∧ (s.afterSteps m).keys ≠ 0x0000#16

/-- From here on the outside issues ticks and key updates alone: the boot sequence of R252 is over. -/
def TicksAndKeysOnly (s : State) : Prop :=
  ∀ m, (s.afterSteps m).nextEvent = .instrTick ∨ (s.afterSteps m).nextEvent = .timerTick ∨
    ∃ keys, (s.afterSteps m).nextEvent = .driveKeys keys

/-- The first `n` events the clocks issue. -/
def Clocks.events : Nat → Clocks → List Event
  | 0, _ => []
  | n + 1, c => c.next.1 :: Clocks.events n c.next.2

/-! ### The invariant (R38) -/

/-- What a latched fault says of the state it is latched in: `pc`, `sp` and `I` have stayed as the faulting step found
them (R211, R216, R217). -/
def State.explains (s : State) (f : LatchedFault) : Prop :=
  match f.cause with
  | .fetchOutOfBounds => f.info = s.pc ∧ 0xFFE < s.pc.toNat
  | .stackUnderflow => f.info = s.pc ∧ s.sp = 0
  | .stackOverflow => f.info = s.pc ∧ s.sp = 15
  | .memOutOfBounds => f.info = s.dataFaultAddress ∧ 0xFFF < s.I.toNat + 15
  | .keyIndexOutOfRange => 15 < f.info.toNat ∧ f.info.toNat ≤ 0xFF

/-- The invariant of R38, and that memory is in canonical form and a latched fault fits the state. -/
structure Inv (s : State) : Prop where
  memory : Memory.wf s.mem = true
  pc : s.pc.toNat ≤ 0x10FE
  base : s.stack[(0 : Fin 16)] = 0x0000#16
  live : ∀ k : Fin 16, 1 ≤ k.val → k.val ≤ s.sp.val → 2 ≤ (s.stack[k]).toNat ∧ (s.stack[k]).toNat ≤ 0x1000
  fault : ∀ f : LatchedFault, s.fault = some f → s.explains f

end Sys2Proof.Machine
end

