-- ==== Sys2Proof/Certificates/Slice0/Obligations.lean ====
section
/-! DEFINITION. The statements for the provers. `exec i s` is the part of the instruction step of R90 after its fetch and
its check that nothing is latched, so the statements about one instruction hold for every state. -/

open Sys2Proof Sys2Proof.Machine

/-! ### The decoder -/

/-- R85: each row of the opcode map is selected by its mask and match, and by nothing else. -/
def Obligations.OpcodeMapSelectsByMaskAndMatch : Prop :=
  opcodeMap.length = 34 ∧ ∀ row ∈ opcodeMap, EncodedAs row.mask row.value row.build

/-- R84: no word matches two patterns, and a word that matches none is the unknown opcode. -/
def Obligations.UnknownOpcodeExactlyOutsideTheMap : Prop :=
  (∀ w : Word, ∀ p ∈ opcodeMap, ∀ q ∈ opcodeMap,
    w &&& p.mask = p.value → w &&& q.mask = q.value → p.mask = q.mask ∧ p.value = q.value) ∧
  (∀ w : Word, decodeWord w = .error (.unknownOpcode w) ↔ ∀ row ∈ opcodeMap, w &&& row.mask ≠ row.value) ∧
  (∀ w : Word, ∀ r : DecodeReject, decodeWord w = .error r → r = .unknownOpcode w)

/-- R87: the unknown space, class by class. -/
def Obligations.UnknownSpaceByClass : Prop :=
  ∀ w : Word, decodeWord w = .error (.unknownOpcode w) ↔
    (w.toNat / 4096 = 0x0 ∧ w ≠ 0x00E0#16 ∧ w ≠ 0x00EE#16) ∨
    (w.toNat / 4096 = 0x5 ∧ w.toNat % 16 ≠ 0) ∨
    (w.toNat / 4096 = 0x8 ∧ w.toNat % 16 ∈ [0x8, 0x9, 0xA, 0xB, 0xC, 0xD, 0xF]) ∨
    (w.toNat / 4096 = 0x9 ∧ w.toNat % 16 ≠ 0) ∨
    (w.toNat / 4096 = 0xE ∧ w.toNat % 256 ∉ [0x9E, 0xA1]) ∨
    (w.toNat / 4096 = 0xF ∧ w.toNat % 256 ∉ [0x07, 0x0A, 0x15, 0x18, 0x1E, 0x29, 0x33, 0x55, 0x65])

/-- R82, R86: the bytes of a well-formed instruction, whatever follows them, decode to it. -/
def Obligations.DecodeOfEncodeIsTheInstruction : Prop :=
  ∀ (i : Instr) (rest : List Byte), i.WellFormed → decode (encodeBytes i ++ rest) = .ok (i, rest)

/-- R81: a word decodes to at most one instruction, whose word it is. -/
def Obligations.EncodeOfDecodeIsTheWord : Prop :=
  ∀ (w : Word) (i : Instr), decodeWord w = .ok i → i.WellFormed ∧ encode i = w

/-- Words of every family, from the examples of the rules. -/
def Obligations.SampleWordsDecode : Prop :=
  decodeTableWord 16 0x00E0 = some .cls ∧ decodeTableWord 16 0x2300 = some (.call 0x300) ∧
  decodeTableWord 16 0x332A = some (.seImm 3 0x2A) ∧ decodeTableWord 16 0x8476 = some (.shr 4 7) ∧
  decodeTableWord 16 0xC30F = some (.rnd 3 0x0F) ∧ decodeTableWord 16 0xD125 = some (.drw 1 2 5) ∧
  decodeTableWord 16 0xE29E = some (.skp 2) ∧ decodeTableWord 16 0xF265 = some (.ldVxMem 2) ∧
  decodeTableWord 16 0x5121 = none

/-! ### The instruction step -/

/-- R8, R228, D18: a step performs the event listed first, and where none is listed the next one of the clocks: of the
free schedule, which says nothing of its events, or of the fixed one derived from `INSTR_HZ`. Under the fixed one both
kinds of step recur for ever, whatever else is listed, at `INSTR_HZ` instruction steps to 60 timer steps. That the events
come from a list and from clocks, and the order of the fixed schedule, are the model's choice (log 2). -/
def Obligations.StepPerformsTheNextEvent : Prop :=
  (∀ (s : State) (e : Event) (later : List Event), s.pending = e :: later →
    step s = performEvent e { s with pending := later }) ∧
  (∀ s : State, s.pending = [] → step s = performEvent s.clocks.next.1 { s with clocks := s.clocks.next.2 }) ∧
  (∀ n : Nat, (Clocks.free n).next = (Config.scheduled n, .free (n + 1))) ∧
  (∀ (s : State) (hz phase : Nat), 0 < hz → s.clocks = .rate hz phase → FairSchedule s) ∧
  (∀ hz n : Nat, 0 < hz →
    let events := Clocks.events n (.rate hz 0)
    let ticks := events.count .instrTick
    let timerTicks := events.count .timerTick
    ticks + timerTicks = n ∧ hz * timerTicks ≤ 60 * ticks ∧ 60 * ticks < hz * (timerTicks + 1) + 60)

/-- R90: with no fault latched and both bytes at `pc` present, a step runs the instruction they decode to, where an
instruction tick is the first event listed, and where none is listed and the clocks give one (which event is next, and
that it is taken from the schedule, is the model's choice of log 2). -/
def Obligations.StepRunsTheDecodedInstruction : Prop :=
  ∀ (s : State) (i : Instr) (rest : List Byte), s.Running → s.pc.toNat ≤ 0xFFE →
    decode [Memory.read s.mem s.pc.toNat, Memory.read s.mem (s.pc.toNat + 1)] = .ok (i, rest) →
    (∀ c, s.pending = [] → s.clocks.next = (.instrTick, c) → step s = exec i { s with clocks := c }) ∧
    (∀ later, s.pending = .instrTick :: later → step s = exec i { s with pending := later })

/-- R120: a word that matches no pattern only advances `pc` (and clears `redraw`). -/
def Obligations.UnknownWordOnlyAdvances : Prop :=
  ∀ s : State, s.Running → s.pc.toNat ≤ 0xFFE → (∀ row ∈ opcodeMap, s.fetchedWord &&& row.mask ≠ row.value) →
    ∃ t, instrStep s = .next t ∧ Ends {} (s.pc + 2) false s t

/-- R212: a step that cannot fetch latches `FetchOutOfBounds(pc)` and does nothing else; in a state of the invariant
`pc` is then 0xFFF to 0x10FE. -/
def Obligations.FetchOutOfRangeLatchesItsFault : Prop :=
  ∀ s : State, s.Running → 0xFFE < s.pc.toNat →
    (∃ t, instrStep s = .next t ∧ Latches .fetchOutOfBounds s.pc s t) ∧
    (Inv s → 0xFFF ≤ s.pc.toNat ∧ s.pc.toNat ≤ 0x10FE)

/-- R217: taking a fault latches its cause and changes nothing else; the host sees it on the fault output; while it is
latched instruction steps and timer steps change nothing; no event but reset takes it away, and reset rebuilds the whole
state. (A ROM load and a key update keep the fault and reach the memory and the key level of a halted machine: log 19.) -/
def Obligations.LatchedFaultHaltsUntilReset : Prop :=
  (∀ s t : State, s.Running → instrStep s = .next t → t.fault ≠ none → t = { s with fault := t.fault }) ∧
  ∀ (s : State) (f : LatchedFault), s.fault = some f →
    s.faultCode = f.cause.code ∧ s.faultInfo = some f.info ∧
    performEvent .instrTick s = .next s ∧ performEvent .timerTick s = .next s ∧
    (∀ e : Event, e ≠ .reset → ∃ t, performEvent e s = .next t ∧ t.fault = some f) ∧
    (∃ t, performEvent .reset s = .next t ∧ HoldsResetValues t)

/-- R213 to R216: every instruction answers a next state: where the table of faults gives it a fault in the state
before it, that state with the fault latched and nothing else changed; where it gives none, no fault is latched. -/
def Obligations.InstructionsFaultExactlyAsTheTableSays : Prop :=
  ∀ (i : Instr) (s : State), ∃ t, exec i s = .next t ∧
    match tableFault s i with
    | some f => t = { s with fault := some f }
    | none => t.fault = s.fault

/-- R211, R212, R214, R216: the fault an instruction step latches is the fetch's, else that of the decoded instruction,
else none; a step that faults changes nothing else; and the code on the fault output is the table's. -/
def Obligations.AStepLatchesTheFaultOfTheTable : Prop :=
  (∀ s : State, s.faultCode = match s.fault with
    | none => 0
    | some ⟨.fetchOutOfBounds, _⟩ => 1
    | some ⟨.stackUnderflow, _⟩ => 2
    | some ⟨.stackOverflow, _⟩ => 3
    | some ⟨.memOutOfBounds, _⟩ => 4
    | some ⟨.keyIndexOutOfRange, _⟩ => 5) ∧
  ∀ s : State, s.Running → ∃ t, instrStep s = .next t ∧
    t.fault = (if 0xFFE < s.pc.toNat then some ⟨.fetchOutOfBounds, s.pc⟩
      else match decodeWord s.fetchedWord with
        | .ok i => tableFault s i
        | .error _ => none) ∧
    (t.fault ≠ none → t = { s with fault := t.fault })

/-- R94: where an instruction does not fault, `pc` and `redraw` are as its control signal says, and the additions do not
overflow where a word can be fetched. -/
def Obligations.SignalsMoveTheProgramCounter : Prop :=
  ∀ (i : Instr) (s : State), tableFault s i = none → ∃ t, exec i s = .next t ∧
    (t.redraw = true ↔ tableSignal s i = .advanceAndRedraw) ∧
    (tableSignal s i = .advance → t.pc = s.pc + 2) ∧
    (tableSignal s i = .advanceAndRedraw → t.pc = s.pc + 2) ∧
    (tableSignal s i = .skip → t.pc = s.pc + 4) ∧
    (∀ a, tableSignal s i = .jump a → t.pc = a) ∧
    (tableSignal s i = .block → t.pc = s.pc) ∧
    (s.pc.toNat ≤ 0xFFE → (s.pc + 2).toNat = s.pc.toNat + 2 ∧ (s.pc + 4).toNat = s.pc.toNat + 4)

/-- R30: after an instruction step that does not fault, `redraw` is 1 exactly when the word was a `Dxyn`; the timer
step and the host operations other than reset leave it; and no instruction reads it: two steps from states that differ
in `redraw` alone end in states that differ in `redraw` at most. -/
def Obligations.RedrawExactlyAfterADraw : Prop :=
  (∀ s t : State, s.Running → instrStep s = .next t → t.fault = none →
    (t.redraw = true ↔ s.fetchedWord &&& 0xF000#16 = 0xD000#16)) ∧
  (∀ (e : Event) (s t : State), e ≠ .instrTick → e ≠ .reset → performEvent e s = .next t → t.redraw = s.redraw) ∧
  (∀ (s t : State) (b : Bool), instrStep s = .next t →
    ∃ u, instrStep { s with redraw := b } = .next u ∧ { u with redraw := t.redraw } = t)

/-- R96: a step that does not fault and leaves `pc` is a blocked key wait or a transfer to its own address. (R96 names
`1nnn` and `Bnnn`; by R113 and R111 a call and a return can also land on their own address: log 27.) R194, R265, R271:
under the premise that the host eventually presses a key, a run that waits in `Fx0A` stays there with its registers, for
any number of steps, and then leaves it with the lowest pressed key (that ticks and key updates alone come from here on is
R252's). R264, R271: under the premise that timer steps recur for ever, a run without a fault in which nothing else
changes `DT` comes to `DT = 0`, which a delay loop waits for. Where the events come from is the model's choice (log 2). -/
def Obligations.OnlyWaitsAndSelfTransfersLeaveThePc : Prop :=
  (∀ (i : Instr) (s t : State), tableFault s i = none → exec i s = .next t → t.pc = s.pc →
    (∃ x, i = .ldVxK x ∧ s.keys = 0#16) ∨ i = .jp s.pc ∨ i = .call s.pc ∨
    (∃ nnn, i = .jpV0 nnn ∧ BitVec.ofNat 16 (nnn.toNat + (s.reg 0).toNat) = s.pc) ∨
    (i = .ret ∧ s.stack[s.sp] = s.pc)) ∧
  (∀ (s : State) (x : Reg), s.Running → s.pc.toNat ≤ 0xFFE → decodeWord s.fetchedWord = .ok (.ldVxK x) →
    TicksAndKeysOnly s → KeyEventuallyPressed s →
    ∃ m k : Nat, (∀ j, j ≤ m → (s.afterSteps j).pc = s.pc ∧ ∀ r : Reg, (s.afterSteps j).reg r = s.reg r) ∧
      k < 16 ∧ (s.afterSteps m).keys.getLsbD k = true ∧ (∀ j, j < k → (s.afterSteps m).keys.getLsbD j = false) ∧
      (s.afterSteps (m + 1)).pc = s.pc + 2 ∧ ((s.afterSteps (m + 1)).reg x).toNat = k ∧
      ∀ r : Reg, r ≠ x → (s.afterSteps (m + 1)).reg r = s.reg r) ∧
  (∀ s : State, (∀ n, (s.afterSteps n).Running) → TimerStepsRecur s →
    (∀ n, (s.afterSteps n).nextEvent ≠ .timerTick → (s.afterSteps (n + 1)).DT = (s.afterSteps n).DT) →
    ∃ n, (s.afterSteps n).DT = 0x00#8)

/-! ### The whole machine -/

/-- R38: every step of every kind keeps the invariant, also from states no run reaches. -/
def Obligations.EveryStepKeepsTheInvariant : Prop :=
  ∀ s t : State, Inv s → step s = .next t → Inv t

/-- R37, R38: the invariant holds right after reset. -/
def Obligations.ResetMeetsTheInvariant : Prop := Inv State.reset

/-- R87, R210: every step answers a next state, so no word is refused. A step that latches a fault answers one too: the
halt of R217 and R259 is the state `LatchedFaultHaltsUntilReset` speaks of, and its form is the model's DESIGN CHOICE
(log 1). -/
def Obligations.EveryStepAnswersANextState : Prop :=
  ∀ s : State, ∃ t, step s = .next t

/-- R22: the six flag instructions leave 0 or 1 in `VF`; no other instruction writes `VF` but as its destination. -/
def Obligations.FlagIsWrittenByTheSixAlone : Prop :=
  ∀ (i : Instr) (s t : State), tableFault s i = none → exec i s = .next t →
    (writesFlag i = true → t.reg 15 = 0x00#8 ∨ t.reg 15 = 0x01#8) ∧
    (writesFlag i = false → (15 : Reg) ∉ destinations i → t.reg 15 = s.reg 15)

/-- R25, R26, R27, R29, R34, R50, R144: which instructions write each special register, memory, the video buffer and
the stack, and which takes a random byte. -/
def Obligations.OnlyTheNamedInstructionsWrite : Prop :=
  ∀ (i : Instr) (s t : State), exec i s = .next t →
    (t.I ≠ s.I → (∃ nnn, i = .ldI nnn) ∨ (∃ x, i = .addIVx x) ∨ (∃ x, i = .ldFVx x)) ∧
    (t.DT ≠ s.DT → ∃ x, i = .ldDTVx x) ∧
    (t.ST ≠ s.ST → ∃ x, i = .ldSTVx x) ∧
    (t.mem ≠ s.mem → (∃ x, i = .ldBVx x) ∨ (∃ x, i = .ldMemVx x)) ∧
    (t.vb ≠ s.vb → i = .cls ∨ ∃ x y n, i = .drw x y n) ∧
    (t.sp ≠ s.sp → i = .ret ∨ ∃ nnn, i = .call nnn) ∧
    (t.stack ≠ s.stack → ∃ nnn, i = .call nnn) ∧
    (t.rnd ≠ s.rnd ∨ t.drawn ≠ s.drawn → ∃ x kk, i = .rnd x kk) ∧
    t.keys = s.keys ∧ t.pending = s.pending ∧ t.clocks = s.clocks

/-- R29: no instruction reads `ST`: two instruction steps from states that differ in `ST` alone end in states that
differ in `ST` alone. -/
def Obligations.NoInstructionReadsTheSoundTimer : Prop :=
  ∀ (s t : State) (v : Byte), instrStep s = .next t →
    ∃ u, instrStep { s with ST := v } = .next u ∧ { u with ST := t.ST } = t

/-- R32: the key level is read by `Ex9E`, `ExA1` and `Fx0A` only, and written by no instruction. -/
def Obligations.KeysAreReadByTheKeyInstructionsAlone : Prop :=
  ∀ (i : Instr) (s t : State) (k : BitVec 16), exec i s = .next t →
    t.keys = s.keys ∧
    ((∃ x, i = .skp x) ∨ (∃ x, i = .sknp x) ∨ (∃ x, i = .ldVxK x) ∨
      exec i { s with keys := k } = .next { t with keys := k })

/-! ### Timers, host operations and ports -/

/-- R226: a timer step takes one from each timer that is above zero and touches nothing else; it does nothing while a
fault is latched. -/
def Obligations.TimerStepCountsBothTimersDown : Prop :=
  ∀ s : State,
    (s.Running → ∃ t, performEvent .timerTick s = .next t ∧ t.DT.toNat = s.DT.toNat - 1 ∧
      t.ST.toNat = s.ST.toNat - 1 ∧ Ends { delay := true, sound := true } s.pc s.redraw s t) ∧
    (¬s.Running → performEvent .timerTick s = .next s)

/-- R229: the beep is `ST > 0`; with `ST = v` and timer steps only, it is sampled true after tick `k` exactly when
`k < v`, so on `v - 1` ticks. -/
def Obligations.BeepIsSampledOneTickLess : Prop :=
  ∀ (s : State) (k : Nat), s.Running →
    (s.beep = true ↔ 0 < s.ST.toNat) ∧ ((timerStep^[k] s).beep = true ↔ k < s.ST.toNat)

/-- R37, R250: what reset leaves, in the state `State.reset` and after a reset event from any state, a latched fault
included. -/
def Obligations.ResetRebuildsTheWholeState : Prop :=
  HoldsResetValues State.reset ∧ ∀ s : State, ∃ t, performEvent .reset s = .next t ∧ HoldsResetValues t

/-- R239: a ROM of at most 3584 bytes is copied to 0x200 and nothing else changes; a longer one changes nothing and is
reported. That a halted machine takes a load too is the model's reading of R217 (DEDUCED, log 19). -/
def Obligations.RomLoadCopiesVerbatimOrRefuses : Prop :=
  ∀ (s : State) (bytes : List Byte),
    (bytes.length ≤ 3584 → romTooLarge bytes = false ∧ ∃ t, performEvent (.romLoad bytes) s = .next t ∧
      (∀ j (h : j < bytes.length), Memory.read t.mem (0x200 + j) = bytes[j]) ∧
      Ends { stores := (0x200, bytes.length) } s.pc s.redraw s t) ∧
    (3584 < bytes.length → romTooLarge bytes = true ∧ performEvent (.romLoad bytes) s = .next s)

/-- R240: between steps the host may drive any key level, whatever the one before, and that changes nothing else. -/
def Obligations.KeyUpdateChangesTheKeysAlone : Prop :=
  ∀ (s : State) (k : BitVec 16), ∃ t, performEvent (.driveKeys k) s = .next t ∧ t.keys = k ∧ { t with keys := s.keys } = s

/-- R25, R232: the read-only view of the video buffer is row-major. -/
def Obligations.VideoBufferViewIsRowMajor : Prop :=
  ∀ (s : State) (px py : Nat), px < 64 → py < 32 → s.vbPort (py * 64 + px) = Frame.pixel s.vb px py

/-! ### Control flow -/

/-- R111 -/
def Obligations.RetPopsTheReturnAddress : Prop :=
  EncodedAs 0xFFFF 0x00EE (fun _ => .ret) ∧
  ∀ s : State,
    (s.sp = 0 → ∃ t, exec .ret s = .next t ∧ Latches .stackUnderflow s.pc s t) ∧
    (s.sp ≠ 0 → ∃ t, exec .ret s = .next t ∧ t.sp.val + 1 = s.sp.val ∧
      Ends { pointer := true } s.stack[s.sp] false s t)

/-- R112 -/
def Obligations.JpJumps : Prop :=
  EncodedAs 0xF000 0x1000 (fun w => .jp (wordNNN w)) ∧
  ∀ (nnn : Word) (s : State), ∃ t, exec (.jp nnn) s = .next t ∧ Ends {} nnn false s t

/-- R113 -/
def Obligations.CallPushesTheReturnAddress : Prop :=
  EncodedAs 0xF000 0x2000 (fun w => .call (wordNNN w)) ∧
  ∀ (nnn : Word) (s : State),
    (s.sp = 15 → ∃ t, exec (.call nnn) s = .next t ∧ Latches .stackOverflow s.pc s t) ∧
    (s.sp ≠ 15 → ∃ t, exec (.call nnn) s = .next t ∧ t.sp.val = s.sp.val + 1 ∧ t.stack[t.sp] = s.pc + 2 ∧
      Ends { pointer := true, entries := [s.sp + 1] } nnn false s t)

/-- R26, R111, R113: a return right after a call comes back to the instruction after the call, with the stack pointer
as before it. -/
def Obligations.ReturnComesBackAfterTheCall : Prop :=
  ∀ (nnn : Word) (s : State), s.sp ≠ 15 →
    ∃ t u, exec (.call nnn) s = .next t ∧ exec .ret t = .next u ∧ u.pc = s.pc + 2 ∧ u.sp = s.sp

/-- R114, R115 -/
def Obligations.SkipsOnAnImmediate : Prop :=
  EncodedAs 0xF000 0x3000 (fun w => .seImm (wordX w) (wordKK w)) ∧
  EncodedAs 0xF000 0x4000 (fun w => .sneImm (wordX w) (wordKK w)) ∧
  ∀ (x : Reg) (kk : Byte) (s : State),
    (∃ t, exec (.seImm x kk) s = .next t ∧ Ends {} (if s.reg x = kk then s.pc + 4 else s.pc + 2) false s t) ∧
    (∃ t, exec (.sneImm x kk) s = .next t ∧ Ends {} (if s.reg x = kk then s.pc + 2 else s.pc + 4) false s t)

/-- R116, R117 -/
def Obligations.SkipsOnARegister : Prop :=
  EncodedAs 0xF00F 0x5000 (fun w => .seReg (wordX w) (wordY w)) ∧
  EncodedAs 0xF00F 0x9000 (fun w => .sneReg (wordX w) (wordY w)) ∧
  ∀ (x y : Reg) (s : State),
    (∃ t, exec (.seReg x y) s = .next t ∧ Ends {} (if s.reg x = s.reg y then s.pc + 4 else s.pc + 2) false s t) ∧
    (∃ t, exec (.sneReg x y) s = .next t ∧ Ends {} (if s.reg x = s.reg y then s.pc + 2 else s.pc + 4) false s t)

/-- R119: for every address a `Bnnn` can encode the sum is exact, up to 0x10FE. -/
def Obligations.JpV0AddsTheOffset : Prop :=
  EncodedAs 0xF000 0xB000 (fun w => .jpV0 (wordNNN w)) ∧
  ∀ (nnn : Word) (s : State), nnn.toNat ≤ 0xFFF →
    ∃ t, exec (.jpV0 nnn) s = .next t ∧ t.pc.toNat = nnn.toNat + (s.reg 0).toNat ∧ Ends {} t.pc false s t

/-! ### Arithmetic and logic -/

/-- R131 -/
def Obligations.LdImmLoadsTheByte : Prop :=
  EncodedAs 0xF000 0x6000 (fun w => .ldImm (wordX w) (wordKK w)) ∧
  ∀ (x : Reg) (kk : Byte) (s : State),
    ∃ t, exec (.ldImm x kk) s = .next t ∧ t.reg x = kk ∧ Ends { regs := [x] } (s.pc + 2) false s t

/-- R132 -/
def Obligations.AddImmAddsWithoutAFlag : Prop :=
  EncodedAs 0xF000 0x7000 (fun w => .addImm (wordX w) (wordKK w)) ∧
  ∀ (x : Reg) (kk : Byte) (s : State),
    ∃ t, exec (.addImm x kk) s = .next t ∧ (t.reg x).toNat = ((s.reg x).toNat + kk.toNat) % 256 ∧
      Ends { regs := [x] } (s.pc + 2) false s t

/-- R133 -/
def Obligations.LdRegCopiesTheRegister : Prop :=
  EncodedAs 0xF00F 0x8000 (fun w => .ldReg (wordX w) (wordY w)) ∧
  ∀ (x y : Reg) (s : State),
    ∃ t, exec (.ldReg x y) s = .next t ∧ t.reg x = s.reg y ∧ Ends { regs := [x] } (s.pc + 2) false s t

/-- R134, R135, R136: bit by bit; no flag. -/
def Obligations.LogicIsBitwiseWithoutAFlag : Prop :=
  EncodedAs 0xF00F 0x8001 (fun w => .orReg (wordX w) (wordY w)) ∧
  EncodedAs 0xF00F 0x8002 (fun w => .andReg (wordX w) (wordY w)) ∧
  EncodedAs 0xF00F 0x8003 (fun w => .xorReg (wordX w) (wordY w)) ∧
  ∀ (x y : Reg) (s : State),
    (∃ t, exec (.orReg x y) s = .next t ∧
      (∀ j, (t.reg x).getLsbD j = ((s.reg x).getLsbD j || (s.reg y).getLsbD j)) ∧
      Ends { regs := [x] } (s.pc + 2) false s t) ∧
    (∃ t, exec (.andReg x y) s = .next t ∧
      (∀ j, (t.reg x).getLsbD j = ((s.reg x).getLsbD j && (s.reg y).getLsbD j)) ∧
      Ends { regs := [x] } (s.pc + 2) false s t) ∧
    (∃ t, exec (.xorReg x y) s = .next t ∧
      (∀ j, (t.reg x).getLsbD j = ((s.reg x).getLsbD j != (s.reg y).getLsbD j)) ∧
      Ends { regs := [x] } (s.pc + 2) false s t)

/-- R139, and R137 for it: `VF` is the carry also where `x` is 15. -/
def Obligations.AddRegCarries : Prop :=
  EncodedAs 0xF00F 0x8004 (fun w => .addReg (wordX w) (wordY w)) ∧
  ∀ (x y : Reg) (s : State),
    ∃ t, exec (.addReg x y) s = .next t ∧
      (x ≠ 15 → (t.reg x).toNat = ((s.reg x).toNat + (s.reg y).toNat) % 256) ∧
      (t.reg 15).toNat = (if 255 < (s.reg x).toNat + (s.reg y).toNat then 1 else 0) ∧
      Ends { regs := [x, 15] } (s.pc + 2) false s t

/-- R140, and R137 for it. -/
def Obligations.SubRegFlagsNoBorrow : Prop :=
  EncodedAs 0xF00F 0x8005 (fun w => .subReg (wordX w) (wordY w)) ∧
  ∀ (x y : Reg) (s : State),
    ∃ t, exec (.subReg x y) s = .next t ∧
      (x ≠ 15 → ((t.reg x).toNat : Int) = ((s.reg x).toNat - (s.reg y).toNat : Int) % 256) ∧
      (t.reg 15).toNat = (if (s.reg y).toNat ≤ (s.reg x).toNat then 1 else 0) ∧
      Ends { regs := [x, 15] } (s.pc + 2) false s t

/-- R141, and R137 for it; `y` is ignored. -/
def Obligations.ShrShiftsRightIntoTheFlag : Prop :=
  EncodedAs 0xF00F 0x8006 (fun w => .shr (wordX w) (wordY w)) ∧
  ∀ (x y : Reg) (s : State),
    ∃ t, exec (.shr x y) s = .next t ∧
      (x ≠ 15 → (t.reg x).toNat = (s.reg x).toNat / 2) ∧
      (t.reg 15).toNat = (s.reg x).toNat % 2 ∧
      Ends { regs := [x, 15] } (s.pc + 2) false s t

/-- R142, and R137 for it. -/
def Obligations.SubnRegFlagsNoBorrow : Prop :=
  EncodedAs 0xF00F 0x8007 (fun w => .subnReg (wordX w) (wordY w)) ∧
  ∀ (x y : Reg) (s : State),
    ∃ t, exec (.subnReg x y) s = .next t ∧
      (x ≠ 15 → ((t.reg x).toNat : Int) = ((s.reg y).toNat - (s.reg x).toNat : Int) % 256) ∧
      (t.reg 15).toNat = (if (s.reg x).toNat ≤ (s.reg y).toNat then 1 else 0) ∧
      Ends { regs := [x, 15] } (s.pc + 2) false s t

/-- R143, and R137 for it; `y` is ignored. -/
def Obligations.ShlShiftsLeftIntoTheFlag : Prop :=
  EncodedAs 0xF00F 0x800E (fun w => .shl (wordX w) (wordY w)) ∧
  ∀ (x y : Reg) (s : State),
    ∃ t, exec (.shl x y) s = .next t ∧
      (x ≠ 15 → (t.reg x).toNat = (s.reg x).toNat * 2 % 256) ∧
      (t.reg 15).toNat = (s.reg x).toNat / 128 ∧
      Ends { regs := [x, 15] } (s.pc + 2) false s t

/-- R144: one byte of the random input under the mask: the one the host supplied, where it has supplied one, and some
byte where it has not (the free value; nothing is said of it). No other instruction takes a byte. -/
def Obligations.RndMasksARandomByte : Prop :=
  EncodedAs 0xF000 0xC000 (fun w => .rnd (wordX w) (wordKK w)) ∧
  (∀ (x : Reg) (kk : Byte) (s : State),
    ∃ t, exec (.rnd x kk) s = .next t ∧
      (∃ r : Byte, (∀ b later, s.rnd = b :: later → r = b) ∧ t.reg x = r &&& kk) ∧
      t.rnd = s.rnd.tail ∧ t.drawn = s.drawn + 1 ∧ Ends { regs := [x], random := true } (s.pc + 2) false s t) ∧
  (∀ (i : Instr) (s t : State), (∀ x kk, i ≠ .rnd x kk) → exec i s = .next t → t.rnd = s.rnd ∧ t.drawn = s.drawn)

/-! ### Index register and memory -/

/-- R161 -/
def Obligations.LdILoadsTheAddress : Prop :=
  EncodedAs 0xF000 0xA000 (fun w => .ldI (wordNNN w)) ∧
  ∀ (nnn : Word) (s : State),
    ∃ t, exec (.ldI nnn) s = .next t ∧ t.I = nnn ∧ Ends { index := true } (s.pc + 2) false s t

/-- R162 -/
def Obligations.AddIAddsModulo65536 : Prop :=
  EncodedAs 0xF0FF 0xF01E (fun w => .addIVx (wordX w)) ∧
  ∀ (x : Reg) (s : State),
    ∃ t, exec (.addIVx x) s = .next t ∧ t.I.toNat = (s.I.toNat + (s.reg x).toNat) % 65536 ∧
      Ends { index := true } (s.pc + 2) false s t

/-- R163: the whole byte times five. -/
def Obligations.LdFPointsAtTheGlyph : Prop :=
  EncodedAs 0xF0FF 0xF029 (fun w => .ldFVx (wordX w)) ∧
  ∀ (x : Reg) (s : State),
    ∃ t, exec (.ldFVx x) s = .next t ∧ t.I.toNat = 5 * (s.reg x).toNat ∧
      Ends { index := true } (s.pc + 2) false s t

/-- R164: the three digits at `I`, `I + 1`, `I + 2`, every other byte kept; above 0xFFD a fault. -/
def Obligations.LdBStoresTheDecimalDigits : Prop :=
  EncodedAs 0xF0FF 0xF033 (fun w => .ldBVx (wordX w)) ∧
  ∀ (x : Reg) (s : State),
    (s.I.toNat + 2 ≤ 0xFFF → ∃ t, exec (.ldBVx x) s = .next t ∧
      (Memory.read t.mem s.I.toNat).toNat = (s.reg x).toNat / 100 ∧
      (Memory.read t.mem (s.I.toNat + 1)).toNat = (s.reg x).toNat / 10 % 10 ∧
      (Memory.read t.mem (s.I.toNat + 2)).toNat = (s.reg x).toNat % 10 ∧
      Ends { stores := (s.I.toNat, 3) } (s.pc + 2) false s t) ∧
    (0xFFF < s.I.toNat + 2 → ∃ t, exec (.ldBVx x) s = .next t ∧
      Latches .memOutOfBounds (BitVec.ofNat 16 (max s.I.toNat 0x1000)) s t)

/-- R165: `V0` to `Vx` at `I` and up, every other byte kept; where the run leaves memory a fault. -/
def Obligations.LdMemStoresTheRegisters : Prop :=
  EncodedAs 0xF0FF 0xF055 (fun w => .ldMemVx (wordX w)) ∧
  ∀ (x : Reg) (s : State),
    (s.I.toNat + x.val ≤ 0xFFF → ∃ t, exec (.ldMemVx x) s = .next t ∧
      (∀ r : Reg, r ≤ x → Memory.read t.mem (s.I.toNat + r.val) = s.reg r) ∧
      Ends { stores := (s.I.toNat, x.val + 1) } (s.pc + 2) false s t) ∧
    (0xFFF < s.I.toNat + x.val → ∃ t, exec (.ldMemVx x) s = .next t ∧
      Latches .memOutOfBounds (BitVec.ofNat 16 (max s.I.toNat 0x1000)) s t)

/-- R166: `V0` to `Vx` from `I` and up, the other registers and all of memory kept; where the run leaves memory a
fault. -/
def Obligations.LdVxMemLoadsTheRegisters : Prop :=
  EncodedAs 0xF0FF 0xF065 (fun w => .ldVxMem (wordX w)) ∧
  ∀ (x : Reg) (s : State),
    (s.I.toNat + x.val ≤ 0xFFF → ∃ t, exec (.ldVxMem x) s = .next t ∧
      (∀ r : Reg, r ≤ x → t.reg r = Memory.read s.mem (s.I.toNat + r.val)) ∧
      Ends { regs := (List.finRange 16).filter (· ≤ x) } (s.pc + 2) false s t) ∧
    (0xFFF < s.I.toNat + x.val → ∃ t, exec (.ldVxMem x) s = .next t ∧
      Latches .memOutOfBounds (BitVec.ofNat 16 (max s.I.toNat 0x1000)) s t)

/-- R166's round trip: `Fx55`, then any change of the registers (zeroing `V0` to `Vx` among them), then `Fx65` with the
same `I` and memory restores `V0` to `Vx`. -/
def Obligations.DumpThenLoadRestoresTheRegisters : Prop :=
  ∀ (x : Reg) (s t : State) (V : Vector Byte 16) (pc : Word), s.I.toNat + x.val ≤ 0xFFF →
    exec (.ldMemVx x) s = .next t →
    ∃ u, exec (.ldVxMem x) { t with V := V, pc := pc } = .next u ∧ u.I = s.I ∧ ∀ r : Reg, r ≤ x → u.reg r = s.reg r

/-! ### Display -/

/-- R180 -/
def Obligations.ClsClearsEveryCell : Prop :=
  EncodedAs 0xFFFF 0x00E0 (fun _ => .cls) ∧
  ∀ s : State, ∃ t, exec .cls s = .next t ∧ (∀ px py, Frame.pixel t.vb px py = false) ∧
    Ends { display := true } (s.pc + 2) false s t

/-- R181 to R185: each cell of the display an on-bit of the sprite lands on is toggled, every other cell kept, and `VF`
is 1 exactly when such a cell was lit before; where the sprite leaves memory a fault. That bit 7 of a sprite byte is the
leftmost column is the spec's decision D11 (log 6). -/
def Obligations.DrwTogglesTheCoveredCells : Prop :=
  EncodedAs 0xF000 0xD000 (fun w => .drw (wordX w) (wordY w) (wordN w)) ∧
  ∀ (x y : Reg) (n : Nat) (s : State),
    (n = 0 ∨ s.I.toNat + n - 1 ≤ 0xFFF → ∃ t, exec (.drw x y n) s = .next t ∧
      (∀ px py, px < 64 → py < 32 →
        (SpriteCovers s x y n px py → Frame.pixel t.vb px py = !Frame.pixel s.vb px py) ∧
        (¬SpriteCovers s x y n px py → Frame.pixel t.vb px py = Frame.pixel s.vb px py)) ∧
      (t.reg 15 = 0x01#8 ∨ t.reg 15 = 0x00#8) ∧
      (t.reg 15 = 0x01#8 ↔
        ∃ px py, px < 64 ∧ py < 32 ∧ SpriteCovers s x y n px py ∧ Frame.pixel s.vb px py = true) ∧
      Ends { regs := [15], display := true } (s.pc + 2) true s t) ∧
    (1 ≤ n → 0xFFF < s.I.toNat + n - 1 → ∃ t, exec (.drw x y n) s = .next t ∧
      Latches .memOutOfBounds (BitVec.ofNat 16 (max s.I.toNat 0x1000)) s t)

/-- R186: drawing the same sprite twice at the same place restores the display, and the second draw reports a collision
exactly when the first turned a cell on; a sprite of no rows changes no cell, leaves 0 in `VF` and raises `redraw`. (With
`x` or `y` 15 the flag of the first draw may move the second; then the place is not the same.) -/
def Obligations.DrawingTwiceRestoresTheDisplay : Prop :=
  (∀ (x y : Reg) (n : Nat) (s : State), n = 0 ∨ s.I.toNat + n - 1 ≤ 0xFFF →
    ∃ t, exec (.drw x y n) s = .next t ∧
      ((t.reg x).toNat % 64 = (s.reg x).toNat % 64 → (t.reg y).toNat % 32 = (s.reg y).toNat % 32 →
        ∃ u, exec (.drw x y n) t = .next u ∧ (∀ px py, Frame.pixel u.vb px py = Frame.pixel s.vb px py) ∧
          (u.reg 15 = 0x01#8 ↔ ∃ px py, Frame.pixel s.vb px py = false ∧ Frame.pixel t.vb px py = true))) ∧
  (∀ (x y : Reg) (s : State), ∃ t, exec (.drw x y 0) s = .next t ∧ t.reg 15 = 0x00#8 ∧
    Ends { regs := [15] } (s.pc + 2) true s t)

/-! ### Keys and timers -/

/-- R191, R192 -/
def Obligations.SkipsOnAKey : Prop :=
  EncodedAs 0xF0FF 0xE09E (fun w => .skp (wordX w)) ∧ EncodedAs 0xF0FF 0xE0A1 (fun w => .sknp (wordX w)) ∧
  ∀ (x : Reg) (s : State),
    ((s.reg x).toNat ≤ 15 →
      (∃ t, exec (.skp x) s = .next t ∧
        Ends {} (if s.keys.getLsbD (s.reg x).toNat then s.pc + 4 else s.pc + 2) false s t) ∧
      (∃ t, exec (.sknp x) s = .next t ∧
        Ends {} (if s.keys.getLsbD (s.reg x).toNat then s.pc + 2 else s.pc + 4) false s t)) ∧
    (15 < (s.reg x).toNat →
      (∃ t, exec (.skp x) s = .next t ∧ Latches .keyIndexOutOfRange (BitVec.ofNat 16 (s.reg x).toNat) s t) ∧
      (∃ t, exec (.sknp x) s = .next t ∧ Latches .keyIndexOutOfRange (BitVec.ofNat 16 (s.reg x).toNat) s t))

/-- R193 -/
def Obligations.LdVxDTReadsTheDelayTimer : Prop :=
  EncodedAs 0xF0FF 0xF007 (fun w => .ldVxDT (wordX w)) ∧
  ∀ (x : Reg) (s : State),
    ∃ t, exec (.ldVxDT x) s = .next t ∧ t.reg x = s.DT ∧ Ends { regs := [x] } (s.pc + 2) false s t

/-- R194: the lowest-numbered pressed key; with no key pressed the step blocks. -/
def Obligations.LdVxKWaitsForTheLowestKey : Prop :=
  EncodedAs 0xF0FF 0xF00A (fun w => .ldVxK (wordX w)) ∧
  ∀ (x : Reg) (s : State),
    (∀ k, k < 16 → s.keys.getLsbD k = true → (∀ j, j < k → s.keys.getLsbD j = false) →
      ∃ t, exec (.ldVxK x) s = .next t ∧ (t.reg x).toNat = k ∧ Ends { regs := [x] } (s.pc + 2) false s t) ∧
    (s.keys = 0x0000#16 → ∃ t, exec (.ldVxK x) s = .next t ∧ Ends {} s.pc false s t)

/-- R195, R196 -/
def Obligations.TimersAreSetFromARegister : Prop :=
  EncodedAs 0xF0FF 0xF015 (fun w => .ldDTVx (wordX w)) ∧ EncodedAs 0xF0FF 0xF018 (fun w => .ldSTVx (wordX w)) ∧
  ∀ (x : Reg) (s : State),
    (∃ t, exec (.ldDTVx x) s = .next t ∧ t.DT = s.reg x ∧ Ends { delay := true } (s.pc + 2) false s t) ∧
    (∃ t, exec (.ldSTVx x) s = .next t ∧ t.ST = s.reg x ∧ (t.beep = true ↔ 0 < (s.reg x).toNat) ∧
      Ends { sound := true } (s.pc + 2) false s t)
end

