-- ==== Sys2Proof/Laws/Decode.lean ====
section
/-! SUPPORT. The fields of a word and of an encoding as numbers, the masks of R85, and that the decoder gives well-formed
instructions only. -/

namespace Sys2Proof

theorem append_toNat {m n : Nat} (a : BitVec m) (b : BitVec n) : (a ++ b).toNat = a.toNat * 2 ^ n + b.toNat := by
  rw [BitVec.toNat_append, ← Nat.shiftLeft_add_eq_or_of_lt b.isLt, Nat.shiftLeft_eq]

/-! ### The fields of a word -/

theorem fieldClass_toNat (w : Word) : (fieldClass w).toNat = w.toNat / 4096 := by
  have := w.isLt
  simp [fieldClass, Nat.shiftRight_eq_div_pow]
  omega

theorem fieldX_val (w : Word) : (fieldX w).val = w.toNat / 256 % 16 := by
  simp [fieldX, Nat.shiftRight_eq_div_pow]

theorem fieldY_val (w : Word) : (fieldY w).val = w.toNat / 16 % 16 := by
  simp [fieldY, Nat.shiftRight_eq_div_pow]

theorem fieldN_toNat (w : Word) : (fieldN w).toNat = w.toNat % 16 := by
  simp [fieldN]

theorem fieldKK_toNat (w : Word) : (fieldKK w).toNat = w.toNat % 256 := by
  simp [fieldKK]

theorem fieldNNN_toNat (w : Word) : (fieldNNN w).toNat = w.toNat % 4096 := by
  simp [fieldNNN]
  omega

theorem wordOfBytes_toNat (hi lo : Byte) : (wordOfBytes hi lo).toNat = hi.toNat * 256 + lo.toNat :=
  append_toNat hi lo

/-- A word is its high byte and its low byte (R51). -/
theorem wordOfBytes_bytes (w : Word) : wordOfBytes (highByte w) (lowByte w) = w := by
  apply BitVec.eq_of_toNat_eq
  rw [wordOfBytes_toNat]
  have := w.isLt
  simp [highByte, lowByte, Nat.shiftRight_eq_div_pow]
  omega

/-! ### The words of the formats -/

theorem encodeXYN_toNat (c : BitVec 4) (x y : Reg) (n : BitVec 4) :
    (encodeXYN c x y n).toNat = c.toNat * 4096 + x.val * 256 + y.val * 16 + n.toNat := by
  unfold encodeXYN regNibble
  rw [append_toNat, append_toNat, append_toNat]
  simp
  omega

theorem encodeXKK_toNat (c : BitVec 4) (x : Reg) (kk : Byte) :
    (encodeXKK c x kk).toNat = c.toNat * 4096 + x.val * 256 + kk.toNat := by
  unfold encodeXKK regNibble
  rw [append_toNat, append_toNat]
  simp
  omega

theorem encodeNNN_toNat (c : BitVec 4) (nnn : Word) :
    (encodeNNN c nnn).toNat = c.toNat * 4096 + nnn.toNat % 4096 := by
  unfold encodeNNN
  rw [append_toNat]
  simp

section
variable (c : BitVec 4) (x y : Reg) (n : BitVec 4) (kk : Byte) (nnn : Word)

@[simp] theorem fieldClass_encodeXYN : fieldClass (encodeXYN c x y n) = c := by
  apply BitVec.eq_of_toNat_eq
  rw [fieldClass_toNat, encodeXYN_toNat]
  have := x.isLt; have := y.isLt; have := n.isLt
  omega

@[simp] theorem fieldX_encodeXYN : fieldX (encodeXYN c x y n) = x := by
  apply Fin.ext
  rw [fieldX_val, encodeXYN_toNat]
  have := x.isLt; have := y.isLt; have := n.isLt
  omega

@[simp] theorem fieldY_encodeXYN : fieldY (encodeXYN c x y n) = y := by
  apply Fin.ext
  rw [fieldY_val, encodeXYN_toNat]
  have := y.isLt; have := n.isLt
  omega

@[simp] theorem fieldN_encodeXYN : fieldN (encodeXYN c x y n) = n := by
  apply BitVec.eq_of_toNat_eq
  rw [fieldN_toNat, encodeXYN_toNat]
  have := n.isLt
  omega

@[simp] theorem fieldClass_encodeXKK : fieldClass (encodeXKK c x kk) = c := by
  apply BitVec.eq_of_toNat_eq
  rw [fieldClass_toNat, encodeXKK_toNat]
  have := x.isLt; have := kk.isLt
  omega

@[simp] theorem fieldX_encodeXKK : fieldX (encodeXKK c x kk) = x := by
  apply Fin.ext
  rw [fieldX_val, encodeXKK_toNat]
  have := x.isLt; have := kk.isLt
  omega

@[simp] theorem fieldKK_encodeXKK : fieldKK (encodeXKK c x kk) = kk := by
  apply BitVec.eq_of_toNat_eq
  rw [fieldKK_toNat, encodeXKK_toNat]
  have := kk.isLt
  omega

@[simp] theorem fieldClass_encodeNNN : fieldClass (encodeNNN c nnn) = c := by
  apply BitVec.eq_of_toNat_eq
  rw [fieldClass_toNat, encodeNNN_toNat]
  omega

theorem fieldNNN_encodeNNN (h : nnn.toNat ≤ 0xFFF) : fieldNNN (encodeNNN c nnn) = nnn := by
  apply BitVec.eq_of_toNat_eq
  rw [fieldNNN_toNat, encodeNNN_toNat]
  omega

end

/-- A word is the encoding of its fields, in format `XYN`. -/
theorem encodeXYN_fields (w : Word) : encodeXYN (fieldClass w) (fieldX w) (fieldY w) (fieldN w) = w := by
  apply BitVec.eq_of_toNat_eq
  rw [encodeXYN_toNat, fieldClass_toNat, fieldX_val, fieldY_val, fieldN_toNat]
  omega

/-- A word is the encoding of its fields, in format `XKK`. -/
theorem encodeXKK_fields (w : Word) : encodeXKK (fieldClass w) (fieldX w) (fieldKK w) = w := by
  apply BitVec.eq_of_toNat_eq
  rw [encodeXKK_toNat, fieldClass_toNat, fieldX_val, fieldKK_toNat]
  omega

/-- A word is the encoding of its fields, in format `NNN`. -/
theorem encodeNNN_fields (w : Word) : encodeNNN (fieldClass w) (fieldNNN w) = w := by
  apply BitVec.eq_of_toNat_eq
  rw [encodeNNN_toNat, fieldClass_toNat, fieldNNN_toNat]
  omega

/-! ### The masks of R85 as numbers -/

theorem and_F000_toNat (w : Word) : (w &&& 0xF000#16).toNat = w.toNat / 4096 * 4096 := by
  have : w &&& 0xF000#16 = (w.extractLsb' 12 4 ++ 0#12 : BitVec (4 + 12)) := by
    apply BitVec.eq_of_getLsbD_eq
    intro i hi
    rw [BitVec.getLsbD_append]
    interval_cases i <;> simp
  rw [this, append_toNat]
  simp [Nat.shiftRight_eq_div_pow]
  have := w.isLt
  omega

theorem and_F00F_toNat (w : Word) : (w &&& 0xF00F#16).toNat = w.toNat / 4096 * 4096 + w.toNat % 16 := by
  have : w &&& 0xF00F#16 = (w.extractLsb' 12 4 ++ 0#8 ++ w.extractLsb' 0 4 : BitVec (4 + 8 + 4)) := by
    apply BitVec.eq_of_getLsbD_eq
    intro i hi
    rw [BitVec.getLsbD_append, BitVec.getLsbD_append]
    interval_cases i <;> simp
  rw [this, append_toNat, append_toNat]
  simp [Nat.shiftRight_eq_div_pow]
  have := w.isLt
  omega

theorem and_F0FF_toNat (w : Word) : (w &&& 0xF0FF#16).toNat = w.toNat / 4096 * 4096 + w.toNat % 256 := by
  have : w &&& 0xF0FF#16 = (w.extractLsb' 12 4 ++ 0#4 ++ w.extractLsb' 0 8 : BitVec (4 + 4 + 8)) := by
    apply BitVec.eq_of_getLsbD_eq
    intro i hi
    rw [BitVec.getLsbD_append, BitVec.getLsbD_append]
    interval_cases i <;> simp
  rw [this, append_toNat, append_toNat]
  simp [Nat.shiftRight_eq_div_pow]
  have := w.isLt
  omega

theorem and_FFFF (w : Word) : w &&& 0xFFFF#16 = w := by
  have : (0xFFFF#16 : Word) = BitVec.allOnes 16 := by decide
  rw [this, BitVec.and_allOnes]

/-! ### What the decoder gives -/

/-- The decoder gives well-formed instructions only. -/
theorem decodeWord_wellFormed {w : Word} {i : Instr} (h : decodeWord w = .ok i) : i.WellFormed := by
  have hnnn := fieldNNN_toNat w
  have hn := fieldN_toNat w
  unfold decodeWord decodeClass0 decodeClass5 decodeClass8 decodeClass9 decodeClassE decodeClassF at h
  split at h <;>
    first
      | (injection h with h; subst h; simp [Instr.WellFormed, Instr.wellFormed]; try omega)
      | (split at h <;> first
          | (injection h with h; subst h; rfl)
          | (split at h <;> first | (injection h with h; subst h; rfl) | simp at h)
          | simp at h)
      | simp at h

/-- The decoder on an instruction's bytes reads its word. -/
theorem decode_encodeBytes (i : Instr) (rest : List Byte) :
    decode (encodeBytes i ++ rest) =
      match decodeWord (encode i) with
      | .ok j => .ok (j, rest)
      | .error r => .error r := by
  cases h : decodeWord (encode i) <;> simp [encodeBytes, decode, wordOfBytes_bytes, h]

end Sys2Proof
end

