-- ==== Sys2Proof/Laws/Memory.lean ====
section
/-! SUPPORT. What the memory operations do: a read after a write, and that every write keeps the canonical form. -/

namespace Sys2Proof.Machine

theorem Memory.read_nil (a : Nat) : Memory.read [] a = Memory.initial a := rfl

theorem Memory.read_erase_same (m : Memory) (a : Nat) : Memory.read (Memory.erase m a) a = Memory.initial a := by
  induction m with
  | nil => rfl
  | cons e rest ih =>
    obtain ⟨k, c⟩ := e
    by_cases h : k = a <;> simp [Memory.erase, Memory.read, h, ih]

theorem Memory.read_erase_other (m : Memory) {a a' : Nat} (h : a' ≠ a) :
    Memory.read (Memory.erase m a) a' = Memory.read m a' := by
  induction m with
  | nil => rfl
  | cons e rest ih =>
    obtain ⟨k, c⟩ := e
    by_cases hk : k = a
    · have : k ≠ a' := fun e => h (e.symm.trans hk)
      simp [Memory.erase, Memory.read, hk, ih, Ne.symm h]
    · simp [Memory.erase, Memory.read, hk, ih]

theorem Memory.read_insert_other (m : Memory) {a a' : Nat} (b : Byte) (h : a' ≠ a) :
    Memory.read (Memory.insert m a b) a' = Memory.read m a' := by
  induction m with
  | nil => simp [Memory.insert, Memory.read, Ne.symm h]
  | cons e rest ih =>
    obtain ⟨k, c⟩ := e
    by_cases hk : a < k
    · simp [Memory.insert, Memory.read, hk, Ne.symm h]
    · simp [Memory.insert, Memory.read, hk, ih]

theorem Memory.read_insert_erase (m : Memory) (a : Nat) (b : Byte) :
    Memory.read (Memory.insert (Memory.erase m a) a b) a = b := by
  induction m with
  | nil => simp [Memory.erase, Memory.insert, Memory.read]
  | cons e rest ih =>
    obtain ⟨k, c⟩ := e
    by_cases hk : k = a
    · simpa [Memory.erase, hk] using ih
    · by_cases hlt : a < k
      · simp [Memory.erase, Memory.insert, Memory.read, hk, hlt]
      · simp [Memory.erase, Memory.insert, Memory.read, hk, hlt, ih]

/-- A read after a write to the same address gives the byte written. -/
@[simp] theorem Memory.read_write_same (m : Memory) (a : Nat) (b : Byte) : Memory.read (Memory.write m a b) a = b := by
  by_cases h : b = Memory.initial a
  · simp [Memory.write, h, Memory.read_erase_same]
  · simp [Memory.write, h, Memory.read_insert_erase]

/-- A write leaves every other address alone. -/
theorem Memory.read_write_other (m : Memory) {a a' : Nat} (b : Byte) (h : a' ≠ a) :
    Memory.read (Memory.write m a b) a' = Memory.read m a' := by
  by_cases hb : b = Memory.initial a
  · rw [Memory.write, if_pos hb, Memory.read_erase_other m h]
  · rw [Memory.write, if_neg hb, Memory.read_insert_other _ b h, Memory.read_erase_other m h]

/-- Bytes below the first stored address are left alone. -/
theorem Memory.read_storeBytes_below (m : Memory) {a a' : Nat} (bs : List Byte) (h : a' < a) :
    Memory.read (Memory.storeBytes m a bs) a' = Memory.read m a' := by
  induction bs generalizing m a with
  | nil => rfl
  | cons b bs ih => rw [Memory.storeBytes, ih _ (by omega), Memory.read_write_other m b (by omega)]

/-- Bytes above the last stored address are left alone. -/
theorem Memory.read_storeBytes_above (m : Memory) {a a' : Nat} (bs : List Byte) (h : a + bs.length ≤ a') :
    Memory.read (Memory.storeBytes m a bs) a' = Memory.read m a' := by
  induction bs generalizing m a with
  | nil => rfl
  | cons b bs ih =>
    simp only [List.length_cons] at h
    rw [Memory.storeBytes, ih _ (by omega), Memory.read_write_other m b (by omega)]

/-- Bytes outside the stored ones are left alone. -/
theorem Memory.read_storeBytes_outside (m : Memory) {a a' : Nat} (bs : List Byte)
    (h : ¬(a ≤ a' ∧ a' < a + bs.length)) : Memory.read (Memory.storeBytes m a bs) a' = Memory.read m a' := by
  by_cases ha : a' < a
  · exact Memory.read_storeBytes_below m bs ha
  · exact Memory.read_storeBytes_above m bs (by omega)

/-- Byte `j` of the stored ones is read back at `a + j`. -/
theorem Memory.read_storeBytes_inside (m : Memory) (a : Nat) (bs : List Byte) (j : Nat) (h : j < bs.length) :
    Memory.read (Memory.storeBytes m a bs) (a + j) = bs[j] := by
  induction bs generalizing m a j with
  | nil => simp at h
  | cons b bs ih =>
    cases j with
    | zero => simp [Memory.storeBytes, Memory.read_storeBytes_below _ _ (Nat.lt_succ_self a)]
    | succ j =>
      simp only [List.length_cons] at h
      simpa [Memory.storeBytes, Nat.add_assoc, Nat.add_comm 1 j] using ih (Memory.write m a b) (a + 1) j (by omega)

/-- What a run of bytes loaded from memory holds. -/
theorem Memory.loadBytes_eq (m : Memory) (a n : Nat) :
    Memory.loadBytes m a n = (List.range n).map fun r => Memory.read m (a + r) := by
  induction n generalizing a with
  | zero => rfl
  | succ n ih =>
    rw [Memory.loadBytes, ih, List.range_succ_eq_map]
    simp [Function.comp_def, Nat.add_assoc, Nat.add_comm 1]

@[simp] theorem Memory.length_loadBytes (m : Memory) (a n : Nat) : (Memory.loadBytes m a n).length = n := by
  simp [Memory.loadBytes_eq]

/-! ### The canonical form -/

theorem Memory.wfFrom_cons (lo k : Nat) (c : Byte) (rest : Memory) :
    Memory.wfFrom lo ((k, c) :: rest) = true ↔
      lo ≤ k ∧ k < 0x1000 ∧ c ≠ Memory.initial k ∧ Memory.wfFrom (k + 1) rest = true := by
  simp [Memory.wfFrom, and_assoc]

theorem Memory.wfFrom_mono {lo lo' : Nat} {m : Memory} (h : Memory.wfFrom lo m = true) (hl : lo' ≤ lo) :
    Memory.wfFrom lo' m = true := by
  cases m with
  | nil => rfl
  | cons e rest =>
    obtain ⟨k, c⟩ := e
    rw [Memory.wfFrom_cons] at h ⊢
    exact ⟨by omega, h.2⟩

theorem Memory.wfFrom_erase {lo : Nat} {m : Memory} (a : Nat) (h : Memory.wfFrom lo m = true) :
    Memory.wfFrom lo (Memory.erase m a) = true := by
  induction m generalizing lo with
  | nil => rfl
  | cons e rest ih =>
    obtain ⟨k, c⟩ := e
    rw [Memory.wfFrom_cons] at h
    by_cases hk : k = a
    · simpa [Memory.erase, hk] using ih (Memory.wfFrom_mono h.2.2.2 (by omega))
    · simpa [Memory.erase, hk, Memory.wfFrom_cons] using ⟨h.1, h.2.1, h.2.2.1, ih h.2.2.2⟩

theorem Memory.wfFrom_insert {lo : Nat} {m : Memory} (a : Nat) (b : Byte) (hm : Memory.wfFrom lo m = true)
    (ha : ∀ e ∈ m, e.1 ≠ a) (hl : lo ≤ a) (hs : a < 0x1000) (hb : b ≠ Memory.initial a) :
    Memory.wfFrom lo (Memory.insert m a b) = true := by
  induction m generalizing lo with
  | nil => simp [Memory.insert, Memory.wfFrom, hl, hs, hb]
  | cons e rest ih =>
    obtain ⟨k, c⟩ := e
    rw [Memory.wfFrom_cons] at hm
    have hk : k ≠ a := ha _ (List.mem_cons_self ..)
    by_cases hlt : a < k
    · simp only [Memory.insert, hlt, if_true, Memory.wfFrom_cons]
      exact ⟨hl, hs, hb, by omega, hm.2⟩
    · simp only [Memory.insert, hlt, if_false, Memory.wfFrom_cons]
      exact ⟨hm.1, hm.2.1, hm.2.2.1, ih hm.2.2.2 (fun e he => ha e (List.mem_cons_of_mem _ he)) (by omega)⟩

theorem Memory.erase_ne (m : Memory) (a : Nat) : ∀ e ∈ Memory.erase m a, e.1 ≠ a := by
  induction m with
  | nil => simp [Memory.erase]
  | cons e rest ih =>
    obtain ⟨k, c⟩ := e
    by_cases hk : k = a
    · simpa [Memory.erase, hk] using ih
    · simpa [Memory.erase, hk] using ih

/-- A write to an address that exists keeps the canonical form. -/
theorem Memory.wf_write {m : Memory} {a : Nat} (b : Byte) (h : Memory.wf m = true) (ha : a < 0x1000) :
    Memory.wf (Memory.write m a b) = true := by
  by_cases hb : b = Memory.initial a
  · rw [Memory.write, if_pos hb]
    exact Memory.wfFrom_erase a h
  · rw [Memory.write, if_neg hb]
    exact Memory.wfFrom_insert a b (Memory.wfFrom_erase a h) (Memory.erase_ne m a) (Nat.zero_le a) ha hb

/-- A store of bytes to addresses that exist keeps the canonical form. -/
theorem Memory.wf_storeBytes {m : Memory} {a : Nat} (bs : List Byte) (h : Memory.wf m = true)
    (ha : a + bs.length ≤ 0x1000) : Memory.wf (Memory.storeBytes m a bs) = true := by
  induction bs generalizing m a with
  | nil => exact h
  | cons b bs ih =>
    simp only [List.length_cons] at ha
    exact ih (Memory.wf_write b h (by omega)) (by omega)

/-- Memory right after reset is in canonical form. -/
theorem Memory.wf_reset : Memory.wf State.reset.mem = true := rfl

end Sys2Proof.Machine
end

