-- ==== Sys2Proof/Laws/State.lean ====
section
/-! SUPPORT. One lemma per field per update of the state, so that no proof unfolds a record update. -/

namespace Sys2Proof.Machine

section SetReg
variable (s : State) (r : Reg) (b : Byte)
@[simp] theorem State.setReg_mem : (s.setReg r b).mem = s.mem := rfl
@[simp] theorem State.setReg_vb : (s.setReg r b).vb = s.vb := rfl
@[simp] theorem State.setReg_stack : (s.setReg r b).stack = s.stack := rfl
@[simp] theorem State.setReg_sp : (s.setReg r b).sp = s.sp := rfl
@[simp] theorem State.setReg_I : (s.setReg r b).I = s.I := rfl
@[simp] theorem State.setReg_pc : (s.setReg r b).pc = s.pc := rfl
@[simp] theorem State.setReg_DT : (s.setReg r b).DT = s.DT := rfl
@[simp] theorem State.setReg_ST : (s.setReg r b).ST = s.ST := rfl
@[simp] theorem State.setReg_redraw : (s.setReg r b).redraw = s.redraw := rfl
@[simp] theorem State.setReg_fault : (s.setReg r b).fault = s.fault := rfl
@[simp] theorem State.setReg_keys : (s.setReg r b).keys = s.keys := rfl
@[simp] theorem State.setReg_rnd : (s.setReg r b).rnd = s.rnd := rfl
@[simp] theorem State.setReg_drawn : (s.setReg r b).drawn = s.drawn := rfl
@[simp] theorem State.setReg_pending : (s.setReg r b).pending = s.pending := rfl
@[simp] theorem State.setReg_clocks : (s.setReg r b).clocks = s.clocks := rfl
end SetReg

/-- A register write gives the byte to its register and leaves the others alone. -/
theorem State.reg_setReg (s : State) (r r' : Reg) (b : Byte) :
    (s.setReg r b).reg r' = if r' = r then b else s.reg r' := by
  by_cases h : r' = r
  · subst h; simp [State.reg, State.setReg]
  · have : r.val ≠ r'.val := fun e => h (Fin.ext e.symm)
    simp [State.reg, State.setReg, h, Vector.getElem_set_ne _ _ this]

@[simp] theorem State.reg_setReg_same (s : State) (r : Reg) (b : Byte) : (s.setReg r b).reg r = b := by
  simp [State.reg_setReg]

theorem State.reg_setReg_other (s : State) {r r' : Reg} (b : Byte) (h : r' ≠ r) :
    (s.setReg r b).reg r' = s.reg r' := by simp [State.reg_setReg, h]

section SetRegThenFlag
variable (s : State) (x : Reg) (b : Byte) (f : Bool)
@[simp] theorem State.setRegThenFlag_mem : (s.setRegThenFlag x b f).mem = s.mem := rfl
@[simp] theorem State.setRegThenFlag_vb : (s.setRegThenFlag x b f).vb = s.vb := rfl
@[simp] theorem State.setRegThenFlag_stack : (s.setRegThenFlag x b f).stack = s.stack := rfl
@[simp] theorem State.setRegThenFlag_sp : (s.setRegThenFlag x b f).sp = s.sp := rfl
@[simp] theorem State.setRegThenFlag_I : (s.setRegThenFlag x b f).I = s.I := rfl
@[simp] theorem State.setRegThenFlag_pc : (s.setRegThenFlag x b f).pc = s.pc := rfl
@[simp] theorem State.setRegThenFlag_DT : (s.setRegThenFlag x b f).DT = s.DT := rfl
@[simp] theorem State.setRegThenFlag_ST : (s.setRegThenFlag x b f).ST = s.ST := rfl
@[simp] theorem State.setRegThenFlag_redraw : (s.setRegThenFlag x b f).redraw = s.redraw := rfl
@[simp] theorem State.setRegThenFlag_fault : (s.setRegThenFlag x b f).fault = s.fault := rfl
@[simp] theorem State.setRegThenFlag_keys : (s.setRegThenFlag x b f).keys = s.keys := rfl
@[simp] theorem State.setRegThenFlag_rnd : (s.setRegThenFlag x b f).rnd = s.rnd := rfl
@[simp] theorem State.setRegThenFlag_drawn : (s.setRegThenFlag x b f).drawn = s.drawn := rfl
@[simp] theorem State.setRegThenFlag_pending : (s.setRegThenFlag x b f).pending = s.pending := rfl
@[simp] theorem State.setRegThenFlag_clocks : (s.setRegThenFlag x b f).clocks = s.clocks := rfl
end SetRegThenFlag

/-- The flag stays, also where it is addressed to the destination (R137). -/
theorem State.reg_setRegThenFlag (s : State) (x r : Reg) (b : Byte) (f : Bool) :
    (s.setRegThenFlag x b f).reg r = if r = VF then flagByte f else if r = x then b else s.reg r := by
  simp [State.setRegThenFlag, State.reg_setReg]

section Stack
variable (s : State) (w : Word)
@[simp] theorem State.push_sp : (s.push w).sp = s.sp + 1 := rfl
@[simp] theorem State.push_V : (s.push w).V = s.V := rfl
@[simp] theorem State.push_mem : (s.push w).mem = s.mem := rfl
@[simp] theorem State.push_vb : (s.push w).vb = s.vb := rfl
@[simp] theorem State.push_I : (s.push w).I = s.I := rfl
@[simp] theorem State.push_pc : (s.push w).pc = s.pc := rfl
@[simp] theorem State.push_DT : (s.push w).DT = s.DT := rfl
@[simp] theorem State.push_ST : (s.push w).ST = s.ST := rfl
@[simp] theorem State.push_redraw : (s.push w).redraw = s.redraw := rfl
@[simp] theorem State.push_fault : (s.push w).fault = s.fault := rfl
@[simp] theorem State.push_keys : (s.push w).keys = s.keys := rfl
@[simp] theorem State.push_rnd : (s.push w).rnd = s.rnd := rfl
@[simp] theorem State.push_drawn : (s.push w).drawn = s.drawn := rfl
@[simp] theorem State.push_pending : (s.push w).pending = s.pending := rfl
@[simp] theorem State.push_clocks : (s.push w).clocks = s.clocks := rfl
@[simp] theorem State.pop_sp : s.pop.sp = s.sp - 1 := rfl
@[simp] theorem State.pop_stack : s.pop.stack = s.stack := rfl
@[simp] theorem State.pop_V : s.pop.V = s.V := rfl
@[simp] theorem State.pop_mem : s.pop.mem = s.mem := rfl
@[simp] theorem State.pop_vb : s.pop.vb = s.vb := rfl
@[simp] theorem State.pop_I : s.pop.I = s.I := rfl
@[simp] theorem State.pop_pc : s.pop.pc = s.pc := rfl
@[simp] theorem State.pop_DT : s.pop.DT = s.DT := rfl
@[simp] theorem State.pop_ST : s.pop.ST = s.ST := rfl
@[simp] theorem State.pop_redraw : s.pop.redraw = s.redraw := rfl
@[simp] theorem State.pop_fault : s.pop.fault = s.fault := rfl
@[simp] theorem State.pop_keys : s.pop.keys = s.keys := rfl
@[simp] theorem State.pop_rnd : s.pop.rnd = s.rnd := rfl
@[simp] theorem State.pop_drawn : s.pop.drawn = s.drawn := rfl
@[simp] theorem State.pop_pending : s.pop.pending = s.pending := rfl
@[simp] theorem State.pop_clocks : s.pop.clocks = s.clocks := rfl
end Stack

/-- A push writes the entry the new pointer names and leaves the others alone. -/
theorem State.push_stack (s : State) (w : Word) (k : Fin 16) :
    (s.push w).stack[k] = if k = s.sp + 1 then w else s.stack[k] := by
  by_cases h : k = s.sp + 1
  · subst h; simp [State.push]
  · have : (s.sp + 1 : Fin 16).val ≠ k.val := fun e => h (Fin.ext e.symm)
    simp [State.push, h, Vector.getElem_set_ne _ _ this]

/-- Where the pointer is below 15 it goes up by one. -/
theorem State.push_sp_val (s : State) (w : Word) (h : s.sp ≠ 15) : (s.push w).sp.val = s.sp.val + 1 := by
  have : s.sp.val ≠ 15 := fun e => h (Fin.ext e)
  have := s.sp.isLt
  simp [Fin.val_add]
  omega

/-- Where the pointer is above 0 it goes down by one. -/
theorem State.pop_sp_val (s : State) (h : s.sp ≠ 0) : s.pop.sp.val = s.sp.val - 1 := by
  have : s.sp.val ≠ 0 := fun e => h (Fin.ext e)
  have := s.sp.isLt
  simp [Fin.val_sub]
  omega

section Random
variable (s : State)
@[simp] theorem State.consumeRandom_V : s.consumeRandom.V = s.V := rfl
@[simp] theorem State.consumeRandom_mem : s.consumeRandom.mem = s.mem := rfl
@[simp] theorem State.consumeRandom_vb : s.consumeRandom.vb = s.vb := rfl
@[simp] theorem State.consumeRandom_stack : s.consumeRandom.stack = s.stack := rfl
@[simp] theorem State.consumeRandom_sp : s.consumeRandom.sp = s.sp := rfl
@[simp] theorem State.consumeRandom_I : s.consumeRandom.I = s.I := rfl
@[simp] theorem State.consumeRandom_pc : s.consumeRandom.pc = s.pc := rfl
@[simp] theorem State.consumeRandom_DT : s.consumeRandom.DT = s.DT := rfl
@[simp] theorem State.consumeRandom_ST : s.consumeRandom.ST = s.ST := rfl
@[simp] theorem State.consumeRandom_redraw : s.consumeRandom.redraw = s.redraw := rfl
@[simp] theorem State.consumeRandom_fault : s.consumeRandom.fault = s.fault := rfl
@[simp] theorem State.consumeRandom_keys : s.consumeRandom.keys = s.keys := rfl
@[simp] theorem State.consumeRandom_rnd : s.consumeRandom.rnd = s.rnd.tail := rfl
@[simp] theorem State.consumeRandom_drawn : s.consumeRandom.drawn = s.drawn + 1 := rfl
@[simp] theorem State.consumeRandom_pending : s.consumeRandom.pending = s.pending := rfl
@[simp] theorem State.consumeRandom_clocks : s.consumeRandom.clocks = s.clocks := rfl
@[simp] theorem State.consumeRandom_reg (r : Reg) : s.consumeRandom.reg r = s.reg r := rfl
end Random

section Signals
variable (sig : Signal) (s : State)
@[simp] theorem applySignal_V : (applySignal sig s).V = s.V := by cases sig <;> rfl
@[simp] theorem applySignal_mem : (applySignal sig s).mem = s.mem := by cases sig <;> rfl
@[simp] theorem applySignal_vb : (applySignal sig s).vb = s.vb := by cases sig <;> rfl
@[simp] theorem applySignal_stack : (applySignal sig s).stack = s.stack := by cases sig <;> rfl
@[simp] theorem applySignal_sp : (applySignal sig s).sp = s.sp := by cases sig <;> rfl
@[simp] theorem applySignal_I : (applySignal sig s).I = s.I := by cases sig <;> rfl
@[simp] theorem applySignal_DT : (applySignal sig s).DT = s.DT := by cases sig <;> rfl
@[simp] theorem applySignal_ST : (applySignal sig s).ST = s.ST := by cases sig <;> rfl
@[simp] theorem applySignal_fault : (applySignal sig s).fault = s.fault := by cases sig <;> rfl
@[simp] theorem applySignal_keys : (applySignal sig s).keys = s.keys := by cases sig <;> rfl
@[simp] theorem applySignal_rnd : (applySignal sig s).rnd = s.rnd := by cases sig <;> rfl
@[simp] theorem applySignal_drawn : (applySignal sig s).drawn = s.drawn := by cases sig <;> rfl
@[simp] theorem applySignal_pending : (applySignal sig s).pending = s.pending := by cases sig <;> rfl
@[simp] theorem applySignal_clocks : (applySignal sig s).clocks = s.clocks := by cases sig <;> rfl
@[simp] theorem applySignal_reg (r : Reg) : (applySignal sig s).reg r = s.reg r := by cases sig <;> rfl
end Signals

/-- Where a signal sends the program counter (R94). -/
def Signal.target (pc : Word) : Signal → Word
  | .advance | .advanceAndRedraw => pc + 2
  | .skip => pc + 4
  | .jump a => a
  | .block => pc

@[simp] theorem applySignal_pc (sig : Signal) (s : State) : (applySignal sig s).pc = sig.target s.pc := by
  cases sig <;> rfl

theorem applySignal_redraw (sig : Signal) (s : State) :
    (applySignal sig s).redraw = (decide (sig = .advanceAndRedraw) || s.redraw) := by
  cases sig <;> simp [applySignal]

theorem skipIf_target (c : Bool) (pc : Word) : (skipIf c).target pc = if c then pc + 4 else pc + 2 := by
  cases c <;> rfl

end Sys2Proof.Machine
end

