-- ==== Sys2Proof/Laws/Ops.lean ====
section
/-! SUPPORT. For each shared operation, once, what it does: completing, faulting, the data run, the register group, the
keys, and the sprite. -/

namespace Sys2Proof.Machine

/-! ### Completing and faulting -/

/-- A completed step answers a next state: the writes of the instruction, `redraw` as the signal says, `pc` at the
signal's target. -/
theorem complete_next (sig : Signal) (s : State) :
    complete sig s = .next { s with redraw := decide (sig = .advanceAndRedraw), pc := sig.target s.pc } := by
  cases sig <;> simp [complete, applySignal, Signal.target]

/-- A step that takes a fault answers the state before it with the cause latched. -/
theorem takeFault_next (cause : FaultCause) (info : Word) (s : State) :
    takeFault cause info s = .next { s with fault := some ⟨cause, info⟩ } := rfl

/-! ### The data run -/

theorem State.dataOutOfRange_iff (s : State) (len : Nat) :
    s.dataOutOfRange len = true ↔ 0 < len ∧ 0xFFF < s.I.toNat + (len - 1) := by
  simp [State.dataOutOfRange]

theorem State.dataFaultAddress_toNat (s : State) : s.dataFaultAddress.toNat = max s.I.toNat 0x1000 := by
  have := s.I.isLt
  simp [State.dataFaultAddress]
  omega

/-! ### The register group -/

theorem groupRegs_length (x : Reg) : (groupRegs x).length = groupSize x := by
  have := x.isLt
  simp [groupRegs, groupSize, allRegs]
  omega

theorem groupRegs_getElem (x : Reg) (j : Nat) (h : j < (groupRegs x).length) : ((groupRegs x)[j]).val = j := by
  have hx := x.isLt
  rw [groupRegs_length, groupSize] at h
  have hall : ∀ k : Fin 16, (allRegs[k.val]'(by simp [allRegs])).val = k.val := by decide
  simpa [groupRegs] using hall ⟨j, by omega⟩

theorem mem_groupRegs (x r : Reg) : r ∈ groupRegs x ↔ r.val ≤ x.val := by
  have : ∀ x r : Reg, r ∈ groupRegs x ↔ r.val ≤ x.val := by decide
  exact this x r

theorem State.groupBytes_length (s : State) (x : Reg) : (s.groupBytes x).length = groupSize x := by
  simp [State.groupBytes, groupRegs_length]

theorem State.groupBytes_getElem (s : State) (x r : Reg) (h : r.val < (s.groupBytes x).length) :
    (s.groupBytes x)[r.val] = s.reg r := by
  have hr : r.val < (groupRegs x).length := by simpa [State.groupBytes] using h
  have : (groupRegs x)[r.val] = r := Fin.ext (groupRegs_getElem x r.val hr)
  simp [State.groupBytes, this]

/-- `loadRegs` gives each register of the list its byte and leaves the others alone. -/
theorem loadRegs_getElem (m : Memory) (a : Nat) (rs : List Reg) (v : Vector Byte 16) (r : Reg) :
    (loadRegs m a rs v)[r] = if r ∈ rs then Memory.read m (a + r.val) else v[r] := by
  induction rs generalizing v with
  | nil => simp [loadRegs]
  | cons q qs ih =>
    rw [loadRegs, ih]
    by_cases hq : r ∈ qs
    · simp [hq]
    · by_cases h : r = q
      · subst h; simp [hq]
      · have : q.val ≠ r.val := fun e => h (Fin.ext e.symm)
        simp [hq, h, Vector.getElem_set_ne _ _ this]

/-! ### Keys -/

theorem State.lowestKey_some {s : State} {k : Nat} (h : s.lowestKey = some k) :
    k < 16 ∧ s.keyPressed k = true ∧ ∀ j < k, s.keyPressed j = false := by
  rw [State.lowestKey, List.find?_eq_some_iff_append] at h
  obtain ⟨hk, as, bs, hab, hall⟩ := h
  have hmem : k ∈ List.range 16 := by rw [hab]; simp
  have hlen : as.length = k := by
    have h1 : (List.range 16)[as.length]? = some k := by rw [hab]; simp
    have h2 := List.getElem?_eq_some_iff.mp h1
    obtain ⟨h3, h4⟩ := h2
    simpa using h4
  refine ⟨by simpa using hmem, hk, fun j hj => ?_⟩
  have hj' : j ∈ as := by
    have h1 : (List.range 16)[j]? = as[j]? := by
      rw [hab, List.getElem?_append_left (by omega)]
    have h2 : (List.range 16)[j]? = some j := by
      have : k < 16 := by simpa using hmem
      exact List.getElem?_range (by omega)
    exact List.mem_of_getElem? (h1 ▸ h2)
  simpa using hall j hj'

theorem State.lowestKey_none {s : State} (h : s.lowestKey = none) : ∀ k < 16, s.keyPressed k = false := by
  intro k hk
  rw [State.lowestKey, List.find?_eq_none] at h
  simpa using h k (by simpa using hk)

/-! ### Sprites -/

theorem spriteColumns_getLsbD (b : Byte) (x0 n px : Nat) (hn : n ≤ 8) :
    (spriteColumns b x0 n).getLsbD px = true ↔
      px ≤ 63 ∧ ∃ c < n, px = x0 + c ∧ b.getLsbD (7 - c) = true := by
  induction n with
  | zero => simp [spriteColumns]
  | succ n ih =>
    rw [spriteColumns, BitVec.getLsbD_or, Bool.or_eq_true, ih (by omega)]
    constructor
    · rintro (h | ⟨h1, c, hc, h2, h3⟩)
      · split at h
        · rename_i hb
          simp only [Bool.and_eq_true, decide_eq_true_eq] at hb
          simp only [BitVec.getLsbD_shiftLeft, BitVec.getLsbD_one] at h
          simp only [Bool.and_eq_true, decide_eq_true_eq, Bool.not_eq_true', decide_eq_false_iff_not] at h
          exact ⟨by omega, n, by omega, by omega, hb.1⟩
        · simp at h
      · exact ⟨h1, c, by omega, h2, h3⟩
    · rintro ⟨h1, c, hc, h2, h3⟩
      by_cases hcn : c = n
      · subst hcn
        left
        have : x0 + c ≤ 63 := by omega
        simp only [h3, this, decide_true, Bool.and_self, if_true, BitVec.getLsbD_shiftLeft, BitVec.getLsbD_one]
        simp only [Bool.and_eq_true, decide_eq_true_eq, Bool.not_eq_true', decide_eq_false_iff_not]
        omega
      · exact .inr ⟨h1, c, by omega, h2, h3⟩

/-- A cell of a sprite row is lit exactly where an on-bit of the byte lands on it. -/
theorem spriteRow_getLsbD (b : Byte) (x0 px : Nat) :
    (spriteRow b x0).getLsbD px = true ↔ px ≤ 63 ∧ ∃ c < 8, px = x0 + c ∧ b.getLsbD (7 - c) = true :=
  spriteColumns_getLsbD b x0 8 px (Nat.le_refl 8)

/-- Drawing toggles, in display row `py`, the cells of the sprite row drawn there, if one is. -/
theorem pixel_drawSprite (x0 y : Nat) (bs : List Byte) (vb : Frame) (px py : Nat) (hy : py < 32) :
    Frame.pixel (drawSprite x0 y bs vb) px py =
      (Frame.pixel vb px py ^^ if h : y ≤ py ∧ py - y < bs.length then (spriteRow bs[py - y] x0).getLsbD px else false) := by
  induction bs generalizing y vb with
  | nil => simp [drawSprite]
  | cons b bs ih =>
    rw [drawSprite, ih]
    by_cases h1 : y = py
    · subst h1
      simp [Frame.pixel, hy]
    · by_cases h2 : y < py
      · have e1 : Frame.pixel (if h : y < 32 then vb.set y (vb[y] ^^^ spriteRow b x0) else vb) px py = Frame.pixel vb px py := by
          have : y < 32 := by omega
          simp [Frame.pixel, hy, this, Vector.getElem_set_ne _ _ h1]
        rw [e1]
        congr 1
        by_cases h3 : py - y < bs.length + 1
        · have h4 : py - (y + 1) < bs.length := by omega
          have h5 : py - y = (py - (y + 1)) + 1 := by omega
          simp [h4, show y + 1 ≤ py by omega, show y ≤ py by omega, h5]
        · simp [h3, show ¬ py - (y + 1) < bs.length by omega]
      · have e1 : Frame.pixel (if h : y < 32 then vb.set y (vb[y] ^^^ spriteRow b x0) else vb) px py = Frame.pixel vb px py := by
          by_cases h3 : y < 32
          · simp [Frame.pixel, hy, h3, Vector.getElem_set_ne _ _ h1]
          · simp [h3]
        simp [e1, show ¬ y + 1 ≤ py by omega, show ¬ y ≤ py by omega]

/-- A sprite collides exactly where one of its cells falls on a lit cell. -/
theorem collides_iff (x0 y : Nat) (bs : List Byte) (vb : Frame) :
    collides x0 vb y bs = true ↔ ∃ px py, ∃ h : y ≤ py ∧ py - y < bs.length,
      py < 32 ∧ (spriteRow bs[py - y] x0).getLsbD px = true ∧ Frame.pixel vb px py = true := by
  induction bs generalizing y with
  | nil => simp [collides]
  | cons b bs ih =>
    rw [collides, Bool.or_eq_true, ih]
    constructor
    · rintro (h | ⟨px, py, h, hy, h1, h2⟩)
      · split at h
        · rename_i hy
          simp only [decide_eq_true_eq] at h
          obtain ⟨px, hpx⟩ : ∃ px, (vb[y] &&& spriteRow b x0).getLsbD px = true := by
            by_contra hno
            apply h
            apply BitVec.eq_of_getLsbD_eq
            intro i _
            have := not_exists.mp hno i
            simpa using this
          rw [BitVec.getLsbD_and, Bool.and_eq_true] at hpx
          exact ⟨px, y, ⟨Nat.le_refl y, by simp⟩, hy, by simpa using hpx.2, by simpa [Frame.pixel, hy] using hpx.1⟩
        · simp at h
      · have h5 : py - y = (py - (y + 1)) + 1 := by omega
        refine ⟨px, py, ⟨by omega, by simp; omega⟩, hy, ?_, h2⟩
        simpa [h5] using h1
    · rintro ⟨px, py, h, hy, h1, h2⟩
      by_cases h3 : y = py
      · subst h3
        left
        simp only [hy, dif_pos, decide_eq_true_eq]
        intro hz
        have : (vb[y] &&& spriteRow b x0).getLsbD px = false := by rw [hz]; simp
        rw [BitVec.getLsbD_and] at this
        simp [Frame.pixel, hy] at h2
        simp at h1
        simp [h1, h2] at this
      · right
        have h5 : py - y = (py - (y + 1)) + 1 := by omega
        simp only [List.length_cons] at h
        refine ⟨px, py, ⟨by omega, by omega⟩, hy, ?_, h2⟩
        simpa [h5] using h1

end Sys2Proof.Machine
end

