-- ==== Sys2Proof/Laws/PerInstr.lean ====
section
/-! SUPPORT. Statements about every instruction, one lemma per constructor: the decoder reads back the word the encoder
writes (R82, R84). -/

namespace Sys2Proof.Laws.DecodeEncode

/-- The word of a well-formed instruction decodes to it. -/
def Statement (i : Instr) : Prop := i.WellFormed → decodeWord (encode i) = .ok i

theorem cls : Statement .cls := fun _ => rfl

theorem ret : Statement .ret := fun _ => rfl

theorem jp (nnn : Word) : Statement (.jp nnn) := by
  intro h
  simp [decodeWord, encode, fieldNNN_encodeNNN _ nnn (by simpa [Instr.WellFormed, Instr.wellFormed] using h)]

theorem call (nnn : Word) : Statement (.call nnn) := by
  intro h
  simp [decodeWord, encode, fieldNNN_encodeNNN _ nnn (by simpa [Instr.WellFormed, Instr.wellFormed] using h)]

theorem seImm (x : Reg) (kk : Byte) : Statement (.seImm x kk) := fun _ => by simp [decodeWord, encode]

theorem sneImm (x : Reg) (kk : Byte) : Statement (.sneImm x kk) := fun _ => by simp [decodeWord, encode]

theorem seReg (x : Reg) (y : Reg) : Statement (.seReg x y) := fun _ => by simp [decodeWord, decodeClass5, encode]

theorem ldImm (x : Reg) (kk : Byte) : Statement (.ldImm x kk) := fun _ => by simp [decodeWord, encode]

theorem addImm (x : Reg) (kk : Byte) : Statement (.addImm x kk) := fun _ => by simp [decodeWord, encode]

theorem ldReg (x : Reg) (y : Reg) : Statement (.ldReg x y) := fun _ => by simp [decodeWord, decodeClass8, encode]

theorem orReg (x : Reg) (y : Reg) : Statement (.orReg x y) := fun _ => by simp [decodeWord, decodeClass8, encode]

theorem andReg (x : Reg) (y : Reg) : Statement (.andReg x y) := fun _ => by simp [decodeWord, decodeClass8, encode]

theorem xorReg (x : Reg) (y : Reg) : Statement (.xorReg x y) := fun _ => by simp [decodeWord, decodeClass8, encode]

theorem addReg (x : Reg) (y : Reg) : Statement (.addReg x y) := fun _ => by simp [decodeWord, decodeClass8, encode]

theorem subReg (x : Reg) (y : Reg) : Statement (.subReg x y) := fun _ => by simp [decodeWord, decodeClass8, encode]

theorem shr (x : Reg) (y : Reg) : Statement (.shr x y) := fun _ => by simp [decodeWord, decodeClass8, encode]

theorem subnReg (x : Reg) (y : Reg) : Statement (.subnReg x y) := fun _ => by simp [decodeWord, decodeClass8, encode]

theorem shl (x : Reg) (y : Reg) : Statement (.shl x y) := fun _ => by simp [decodeWord, decodeClass8, encode]

theorem sneReg (x : Reg) (y : Reg) : Statement (.sneReg x y) := fun _ => by simp [decodeWord, decodeClass9, encode]

theorem ldI (nnn : Word) : Statement (.ldI nnn) := by
  intro h
  simp [decodeWord, encode, fieldNNN_encodeNNN _ nnn (by simpa [Instr.WellFormed, Instr.wellFormed] using h)]

theorem jpV0 (nnn : Word) : Statement (.jpV0 nnn) := by
  intro h
  simp [decodeWord, encode, fieldNNN_encodeNNN _ nnn (by simpa [Instr.WellFormed, Instr.wellFormed] using h)]

theorem rnd (x : Reg) (kk : Byte) : Statement (.rnd x kk) := fun _ => by simp [decodeWord, encode]

theorem drw (x : Reg) (y : Reg) (n : Nat) : Statement (.drw x y n) := by
  intro h
  have : n % 16 = n := Nat.mod_eq_of_lt (by simp [Instr.WellFormed, Instr.wellFormed] at h; omega)
  simp [decodeWord, encode, this]

theorem skp (x : Reg) : Statement (.skp x) := fun _ => by simp [decodeWord, decodeClassE, encode]

theorem sknp (x : Reg) : Statement (.sknp x) := fun _ => by simp [decodeWord, decodeClassE, encode]

theorem ldVxDT (x : Reg) : Statement (.ldVxDT x) := fun _ => by simp [decodeWord, decodeClassF, encode]

theorem ldVxK (x : Reg) : Statement (.ldVxK x) := fun _ => by simp [decodeWord, decodeClassF, encode]

theorem ldDTVx (x : Reg) : Statement (.ldDTVx x) := fun _ => by simp [decodeWord, decodeClassF, encode]

theorem ldSTVx (x : Reg) : Statement (.ldSTVx x) := fun _ => by simp [decodeWord, decodeClassF, encode]

theorem addIVx (x : Reg) : Statement (.addIVx x) := fun _ => by simp [decodeWord, decodeClassF, encode]

theorem ldFVx (x : Reg) : Statement (.ldFVx x) := fun _ => by simp [decodeWord, decodeClassF, encode]

theorem ldBVx (x : Reg) : Statement (.ldBVx x) := fun _ => by simp [decodeWord, decodeClassF, encode]

theorem ldMemVx (x : Reg) : Statement (.ldMemVx x) := fun _ => by simp [decodeWord, decodeClassF, encode]

theorem ldVxMem (x : Reg) : Statement (.ldVxMem x) := fun _ => by simp [decodeWord, decodeClassF, encode]

end Sys2Proof.Laws.DecodeEncode
end

