-- ==== Sys2Proof/Laws/Step.lean ====
section
/-! SUPPORT. What a step can do, said once: frames, the two ways an instruction can end, the instruction step by cases, that
no event touches the schedule, and what `withFetchWord` places. -/

namespace Sys2Proof

/-! ### The fields of a word as Safety writes them -/

theorem fieldX_eq_wordX (w : Word) : fieldX w = Machine.wordX w := by
  apply Fin.ext
  rw [fieldX_val]
  simp [Machine.wordX]

theorem fieldY_eq_wordY (w : Word) : fieldY w = Machine.wordY w := by
  apply Fin.ext
  rw [fieldY_val]
  simp [Machine.wordY]

theorem fieldN_eq_wordN (w : Word) : (fieldN w).toNat = Machine.wordN w := fieldN_toNat w

theorem fieldKK_eq_wordKK (w : Word) : fieldKK w = Machine.wordKK w := by
  apply BitVec.eq_of_toNat_eq
  rw [fieldKK_toNat]
  simp [Machine.wordKK]

theorem fieldNNN_eq_wordNNN (w : Word) : fieldNNN w = Machine.wordNNN w := by
  apply BitVec.eq_of_toNat_eq
  rw [fieldNNN_toNat]
  simp [Machine.wordNNN]
  omega

namespace Machine

/-! ### Frames -/

theorem Keeps.refl (w : Writes) (s : State) : Keeps w s s := by
  constructor <;> intros <;> first | rfl | exact ⟨rfl, rfl⟩

/-- What a completing step adds to the instruction's own writes is outside every frame. -/
theorem Keeps.finish {w : Writes} {s t : State} (h : Keeps w s t) (pc : Word) (redraw : Bool) :
    Keeps w s { t with redraw := redraw, pc := pc } :=
  ⟨h.regs, h.memory, h.index, h.display, h.pointer, h.entries, h.delay, h.sound, h.random, h.fault, h.keys, h.pending,
    h.clocks⟩

theorem Keeps.setReg {w : Writes} {s : State} {x : Reg} (b : Byte) (hx : x ∈ w.regs) : Keeps w s (s.setReg x b) :=
  { Keeps.refl w s with regs := fun _ hr => State.reg_setReg_other _ _ fun e => hr (e ▸ hx) }

theorem Keeps.setRegThenFlag (s : State) (x : Reg) (b : Byte) (f : Bool) :
    Keeps { regs := [x, 15] } s (s.setRegThenFlag x b f) := by
  refine { Keeps.refl { regs := [x, 15] } s with regs := fun r hr => ?_ }
  simp only [List.mem_cons, List.not_mem_nil, or_false, not_or] at hr
  have : r ≠ VF := hr.2
  simp [State.reg_setRegThenFlag, hr.1, this]

/-! ### The two ways an instruction ends -/

theorem zext16_eq_ofNat (b : Byte) : zext16 b = BitVec.ofNat 16 b.toNat := by
  apply BitVec.eq_of_toNat_eq
  simp [zext16]

/-- No key is the lowest pressed one exactly where none is pressed. -/
theorem State.lowestKey_none_iff {s : State} : s.lowestKey = none ↔ s.keys = 0#16 := by
  constructor
  · intro h
    apply BitVec.eq_of_getLsbD_eq
    intro i hi
    simpa [State.keyPressed] using State.lowestKey_none h i hi
  · intro h
    rw [State.lowestKey, List.find?_eq_none]
    intro k _
    simp [State.keyPressed, h]

theorem State.sp_val_zero (s : State) : s.sp.val = 0 ↔ s.sp = 0 := ⟨fun h => Fin.ext h, fun h => by rw [h]; rfl⟩

theorem State.sp_val_last (s : State) : s.sp.val = 15 ↔ s.sp = 15 := ⟨fun h => Fin.ext h, fun h => by rw [h]; rfl⟩

theorem State.dataOutOfRange_iff_last (s : State) (n : Nat) :
    s.dataOutOfRange n = true ↔ 1 ≤ n ∧ 0xFFF < s.I.toNat + n - 1 := by
  rw [State.dataOutOfRange_iff]
  omega

/-- An instruction takes the fault the table gives it in the state before it, or ends with its control signal after its
own writes, which are never to `pc`, the fault, the keys, the schedule or the clocks. -/
theorem exec_cases (i : Instr) (s : State) :
    (∃ f, tableFault s i = some f ∧ exec i s = .next { s with fault := some f }) ∨
    (tableFault s i = none ∧ ∃ u, exec i s = complete (tableSignal s i) u ∧
      u.pc = s.pc ∧ u.fault = s.fault ∧ u.keys = s.keys ∧ u.pending = s.pending ∧ u.clocks = s.clocks) := by
  cases i
  case ret =>
    by_cases h : s.sp = 0
    · exact .inl ⟨_, if_pos ((State.sp_val_zero s).mpr h), if_pos h⟩
    · exact .inr ⟨if_neg fun e => h ((State.sp_val_zero s).mp e), _, if_neg h, rfl, rfl, rfl, rfl, rfl⟩
  case call nnn =>
    by_cases h : s.sp = 15
    · exact .inl ⟨_, if_pos ((State.sp_val_last s).mpr h), if_pos h⟩
    · exact .inr ⟨if_neg fun e => h ((State.sp_val_last s).mp e), _, if_neg h, rfl, rfl, rfl, rfl, rfl⟩
  case drw x y n =>
    by_cases h : s.dataOutOfRange n = true
    · exact .inl ⟨_, if_pos ((State.dataOutOfRange_iff_last s n).mp h), if_pos h⟩
    · exact .inr ⟨if_neg fun e => h ((State.dataOutOfRange_iff_last s n).mpr e), _,
        if_neg h, rfl, rfl, rfl, rfl, rfl⟩
  case ldBVx x =>
    have hi := State.dataOutOfRange_iff_last s 3
    by_cases h : s.dataOutOfRange 3 = true
    · exact .inl ⟨_, if_pos (by have := hi.mp h; omega), if_pos h⟩
    · exact .inr ⟨if_neg fun e => h (hi.mpr (by omega)), _, if_neg h, rfl, rfl, rfl, rfl, rfl⟩
  case ldMemVx x =>
    have hi := State.dataOutOfRange_iff_last s (x.val + 1)
    by_cases h : s.dataOutOfRange (groupSize x) = true
    · exact .inl ⟨_, if_pos (by have := hi.mp h; omega), if_pos h⟩
    · exact .inr ⟨if_neg fun e => h (hi.mpr (by omega)), _, if_neg h, rfl, rfl, rfl, rfl, rfl⟩
  case ldVxMem x =>
    have hi := State.dataOutOfRange_iff_last s (x.val + 1)
    by_cases h : s.dataOutOfRange (groupSize x) = true
    · exact .inl ⟨_, if_pos (by have := hi.mp h; omega), if_pos h⟩
    · exact .inr ⟨if_neg fun e => h (hi.mpr (by omega)), _, if_neg h, rfl, rfl, rfl, rfl, rfl⟩
  case skp x =>
    by_cases h : 15 < (s.reg x).toNat
    · exact .inl ⟨_, if_pos h, by simp only [exec, execSkp, if_pos h, zext16_eq_ofNat]; rfl⟩
    · exact .inr ⟨if_neg h, s, if_neg h, rfl, rfl, rfl, rfl, rfl⟩
  case sknp x =>
    by_cases h : 15 < (s.reg x).toNat
    · exact .inl ⟨_, if_pos h, by simp only [exec, execSknp, if_pos h, zext16_eq_ofNat]; rfl⟩
    · refine .inr ⟨if_neg h, s, ?_, rfl, rfl, rfl, rfl, rfl⟩
      simp only [exec, execSknp, if_neg h, tableSignal, skipIf, State.keyPressed]
      by_cases hk : s.keys.getLsbD (s.reg x).toNat = true <;> simp [hk]
  case ldVxK x =>
    right
    cases h : s.lowestKey with
    | none =>
      refine ⟨rfl, s, ?_, rfl, rfl, rfl, rfl, rfl⟩
      simp only [exec, execLdVxK, h, tableSignal, State.lowestKey_none_iff.mp h, if_true]
    | some k =>
      have hk : s.keys ≠ 0#16 := fun e => by rw [← State.lowestKey_none_iff, h] at e; cases e
      refine ⟨rfl, s.setReg x (BitVec.ofNat 8 k), ?_, rfl, rfl, rfl, rfl, rfl⟩
      simp only [exec, execLdVxK, h, tableSignal, hk, if_false]
  case seImm x kk =>
    refine .inr ⟨rfl, s, ?_, rfl, rfl, rfl, rfl, rfl⟩
    by_cases h : s.reg x = kk <;> simp [exec, execSeImm, tableSignal, skipIf, h]
  case sneImm x kk =>
    refine .inr ⟨rfl, s, ?_, rfl, rfl, rfl, rfl, rfl⟩
    by_cases h : s.reg x = kk <;> simp [exec, execSneImm, tableSignal, skipIf, h]
  case seReg x y =>
    refine .inr ⟨rfl, s, ?_, rfl, rfl, rfl, rfl, rfl⟩
    by_cases h : s.reg x = s.reg y <;> simp [exec, execSeReg, tableSignal, skipIf, h]
  case sneReg x y =>
    refine .inr ⟨rfl, s, ?_, rfl, rfl, rfl, rfl, rfl⟩
    by_cases h : s.reg x = s.reg y <;> simp [exec, execSneReg, tableSignal, skipIf, h]
  case jpV0 nnn =>
    refine .inr ⟨rfl, s, ?_, rfl, rfl, rfl, rfl, rfl⟩
    simp only [exec, execJpV0, tableSignal]
    congr 2
  all_goals exact .inr ⟨rfl, _, rfl, rfl, rfl, rfl, rfl, rfl⟩

/-! ### The schedule -/

/-- A listed event is the next one, and taking it takes it from the list. -/
theorem State.next_listed {s : State} {e : Event} {later : List Event} (h : s.pending = e :: later) :
    s.nextEvent = e ∧ s.takeEvent = { s with pending := later } := by
  simp only [State.nextEvent, State.takeEvent, h, and_self]

/-- Where no event is listed the clocks give the next one and go on. -/
theorem State.next_unlisted {s : State} (h : s.pending = []) :
    s.nextEvent = s.clocks.next.1 ∧ s.takeEvent = { s with clocks := s.clocks.next.2 } := by
  simp only [State.nextEvent, State.takeEvent, h, and_self]

/-- Taking an event from the schedule changes nothing but the schedule. -/
theorem State.takeEvent_eq (s : State) : ∃ p c, s.takeEvent = { s with pending := p, clocks := c } := by
  unfold State.takeEvent
  split
  · exact ⟨s.pending, _, rfl⟩
  · exact ⟨_, s.clocks, rfl⟩

theorem complete_pending {sig : Signal} {s t : State} (h : complete sig s = .next t) : t.pending = s.pending := by
  cases h; simp

theorem complete_clocks {sig : Signal} {s t : State} (h : complete sig s = .next t) : t.clocks = s.clocks := by
  cases h; simp

/-- No instruction touches the schedule. -/
theorem exec_schedule {i : Instr} {s t : State} (h : exec i s = .next t) :
    t.pending = s.pending ∧ t.clocks = s.clocks := by
  obtain ⟨f, -, hf⟩ | ⟨-, u, hu, -, -, -, hp, hc⟩ := exec_cases i s
  · rw [hf] at h; cases h; exact ⟨rfl, rfl⟩
  · rw [hu] at h
    exact ⟨(complete_pending h).trans hp, (complete_clocks h).trans hc⟩

/-! ### The instruction step -/

/-- The two bytes at `pc` are the fetched word (R51). -/
theorem State.wordOfBytes_fetch (s : State) :
    wordOfBytes (Memory.read s.mem s.pc.toNat) (Memory.read s.mem (s.pc.toNat + 1)) = s.fetchedWord := by
  apply BitVec.eq_of_toNat_eq
  rw [wordOfBytes_toNat, State.fetchedWord, BitVec.toNat_ofNat]
  have := (Memory.read s.mem s.pc.toNat).isLt
  have := (Memory.read s.mem (s.pc.toNat + 1)).isLt
  omega

/-- The instruction step by cases (R90). -/
theorem instrStep_eq (s : State) : instrStep s =
    if s.fault.isSome then .next s
    else if s.pc.toNat ≤ 0xFFE then
      match decodeWord s.fetchedWord with
      | .ok i => exec i s
      | .error _ => execUnknown s
    else takeFault .fetchOutOfBounds s.pc s := by
  have hf : s.fetch = match decodeWord s.fetchedWord with
      | .ok i => .ok (i, [])
      | .error r => .error r := by
    rw [← State.wordOfBytes_fetch]
    rfl
  unfold instrStep State.halted
  rw [hf]
  split
  · rfl
  · simp only [State.canFetch, decide_eq_true_eq]
    split
    · cases decodeWord s.fetchedWord <;> rfl
    · rfl

/-- No event touches the schedule: what comes next is the outside's alone. -/
theorem performEvent_schedule {e : Event} {s t : State} (h : performEvent e s = .next t) :
    t.pending = s.pending ∧ t.clocks = s.clocks := by
  cases e with
  | instrTick =>
    rw [performEvent, instrStep_eq] at h
    split at h
    · cases h; exact ⟨rfl, rfl⟩
    · split at h
      · split at h
        · exact exec_schedule h
        · exact ⟨complete_pending h, complete_clocks h⟩
      · cases h; exact ⟨rfl, rfl⟩
  | timerTick => cases h; unfold timerStep; split <;> exact ⟨rfl, rfl⟩
  | driveKeys keys => cases h; exact ⟨rfl, rfl⟩
  | romLoad bytes => cases h; unfold romLoad; split <;> exact ⟨rfl, rfl⟩
  | reset => cases h; exact ⟨rfl, rfl⟩

/-- A step leaves the schedule with its next event taken. -/
theorem step_schedule {s t : State} (h : step s = .next t) :
    t.pending = s.takeEvent.pending ∧ t.clocks = s.takeEvent.clocks := performEvent_schedule h

/-- The step after `n` steps. -/
theorem State.afterSteps_succ (s : State) (n : Nat) : s.afterSteps (n + 1) = (s.afterSteps n).afterStep := by
  induction n generalizing s with
  | zero => rfl
  | succ n ih => exact ih s.afterStep

/-- Steps after steps. -/
theorem State.afterSteps_add (s : State) (m n : Nat) : s.afterSteps (m + n) = (s.afterSteps m).afterSteps n := by
  induction m generalizing s with
  | zero => rw [Nat.zero_add]; rfl
  | succ m ih => rw [Nat.succ_add]; exact ih s.afterStep

/-- A step leaves the schedule as it was or with its next event taken. -/
theorem State.afterStep_schedule (s : State) :
    s.afterStep.pending = s.pending ∧ s.afterStep.clocks = s.clocks ∨
      s.afterStep.pending = s.takeEvent.pending ∧ s.afterStep.clocks = s.takeEvent.clocks := by
  unfold State.afterStep
  split
  · exact .inr (step_schedule ‹_›)
  · exact .inl ⟨rfl, rfl⟩

/-- At a rate, and with ticks and key updates alone listed, nothing else ever comes. -/
theorem ticksAndKeysOnly_of_rate {s : State} {hz phase : Nat} (hc : s.clocks = .rate hz phase)
    (hp : ∀ e ∈ s.pending, e = .instrTick ∨ e = .timerTick ∨ ∃ keys, e = .driveKeys keys) : TicksAndKeysOnly s := by
  intro m
  induction m generalizing s phase with
  | zero =>
    show s.nextEvent = _ ∨ s.nextEvent = _ ∨ ∃ keys, s.nextEvent = _
    cases hq : s.pending with
    | cons e later =>
      rw [(State.next_listed hq).1]
      exact hp e (hq ▸ List.mem_cons_self ..)
    | nil =>
      rw [(State.next_unlisted hq).1, hc, Clocks.next]
      split
      · exact .inr (.inl rfl)
      · exact .inl rfl
  | succ m ih =>
    obtain ⟨h1, h2⟩ | ⟨h1, h2⟩ := s.afterStep_schedule
    · exact ih (h2.trans hc) (h1 ▸ hp)
    · cases hq : s.pending with
      | cons e later =>
        rw [(State.next_listed hq).2] at h1 h2
        exact ih (h2.trans hc) (h1 ▸ fun e he => hp e (hq ▸ List.mem_cons_of_mem _ he))
      | nil =>
        rw [(State.next_unlisted hq).2] at h1 h2
        have hn : s.afterStep.pending = [] := h1.trans hq
        rw [hc, Clocks.next] at h2
        split at h2 <;> exact ih h2 (hn ▸ fun _ he => nomatch he)

/-- A word stored at an address is fetched from there. -/
theorem State.fetchedWord_placeWord (s : State) (w : Word) : (s.placeWord w).fetchedWord = w := by
  have h0 := Memory.read_storeBytes_inside s.mem s.pc.toNat [highByte w, lowByte w] 0 (by simp)
  have h1 := Memory.read_storeBytes_inside s.mem s.pc.toNat [highByte w, lowByte w] 1 (by simp)
  rw [← State.wordOfBytes_fetch, State.placeWord]
  exact (congr (congrArg wordOfBytes h0) h1).trans (wordOfBytes_bytes w)

/-- `withFetchWord` places the word where the step fetches it, with nothing latched. -/
theorem State.withFetchWord_ready (s : State) (w : Word) :
    (s.withFetchWord 16 w.toNat).fetchedWord = w ∧ (s.withFetchWord 16 w.toNat).fault = none ∧
      (s.withFetchWord 16 w.toNat).pc.toNat ≤ 0xFFE := by
  refine ⟨?_, rfl, ?_⟩
  · have hw : BitVec.ofNat 16 (w.toNat % 2 ^ 16) = w := by
      apply BitVec.eq_of_toNat_eq
      have := w.isLt
      simp only [BitVec.toNat_ofNat]
      omega
    rw [State.withFetchWord, State.fetchedWord_placeWord, hw]
  · show (if s.canFetch then s.pc else 0x0200#16).toNat ≤ 0xFFE
    by_cases h : s.canFetch = true
    · rw [if_pos h]
      simpa [State.canFetch] using h
    · rw [if_neg h]
      decide

/-- The very next step after `withFetchWord` is an instruction tick. -/
theorem State.withFetchWord_next (s : State) (nbits w : Nat) : (s.withFetchWord nbits w).nextEvent = .instrTick := by
  cases hp : s.pending with
  | cons e later => simp [State.withFetchWord, State.placeWord, State.nextEvent, hp]
  | nil =>
    cases hc : s.clocks with
    | free n => simp [State.withFetchWord, State.placeWord, State.nextEvent, hp, hc]
    | rate hz phase =>
      by_cases h : hz ≤ phase <;> simp [State.withFetchWord, State.placeWord, State.nextEvent, Clocks.next, hp, hc, h]

end Machine

end Sys2Proof
end

