-- ==== Sys2Proof/Tests/Slice0.lean ====
section
/-! SUPPORT. Tests on fixed values and the witnesses of the statements' hypotheses. V<n> and T<n> are the vectors of
spec/95_test_vectors.md, where the expected values come from. -/

namespace Sys2Proof.Tests

open Sys2Proof.Machine

/-! ### Well-formedness: the checks refuse what no encoding holds (R82) -/

theorem test_jp_address_refused : (Instr.jp 0x1000).wellFormed = false := by decide
theorem test_call_address_refused : (Instr.call 0x1000).wellFormed = false := by decide
theorem test_ldI_address_refused : (Instr.ldI 0xFFFF).wellFormed = false := by decide
theorem test_jpV0_address_refused : (Instr.jpV0 0x1000).wellFormed = false := by decide
theorem test_drw_height_refused : (Instr.drw 0 0 16).wellFormed = false := by decide
theorem test_boundaries_accepted : (Instr.jp 0xFFF).wellFormed = true ∧ (Instr.drw 15 15 15).wellFormed = true := by
  decide

/-! ### Decoding: every pattern of R86 written out bit by bit, N3 N2 N1 N0 -/

theorem test_decode_cls : decodeWord 0b0000_0000_1110_0000 = .ok .cls := by decide
theorem test_decode_ret : decodeWord 0b0000_0000_1110_1110 = .ok .ret := by decide
theorem test_decode_jp : decodeWord 0b0001_0010_0011_0100 = .ok (.jp 0x234) := by decide
theorem test_decode_call : decodeWord 0b0010_0011_0000_0000 = .ok (.call 0x300) := by decide
theorem test_decode_seImm : decodeWord 0b0011_0011_0010_1010 = .ok (.seImm 3 0x2A) := by decide
theorem test_decode_sneImm : decodeWord 0b0100_0011_0010_1010 = .ok (.sneImm 3 0x2A) := by decide
theorem test_decode_seReg : decodeWord 0b0101_0001_0010_0000 = .ok (.seReg 1 2) := by decide
theorem test_decode_ldImm : decodeWord 0b0110_0000_0000_1010 = .ok (.ldImm 0 0x0A) := by decide
theorem test_decode_addImm : decodeWord 0b0111_0010_0010_0000 = .ok (.addImm 2 0x20) := by decide
theorem test_decode_ldReg : decodeWord 0b1000_1100_0001_0000 = .ok (.ldReg 12 1) := by decide
theorem test_decode_orReg : decodeWord 0b1000_1100_0001_0001 = .ok (.orReg 12 1) := by decide
theorem test_decode_andReg : decodeWord 0b1000_1100_0001_0010 = .ok (.andReg 12 1) := by decide
theorem test_decode_xorReg : decodeWord 0b1000_1100_0001_0011 = .ok (.xorReg 12 1) := by decide
theorem test_decode_addReg : decodeWord 0b1000_1111_0001_0100 = .ok (.addReg 15 1) := by decide
theorem test_decode_subReg : decodeWord 0b1000_0000_0001_0101 = .ok (.subReg 0 1) := by decide
theorem test_decode_shr : decodeWord 0b1000_0100_0111_0110 = .ok (.shr 4 7) := by decide
theorem test_decode_subnReg : decodeWord 0b1000_0000_0001_0111 = .ok (.subnReg 0 1) := by decide
theorem test_decode_shl : decodeWord 0b1000_0100_0111_1110 = .ok (.shl 4 7) := by decide
theorem test_decode_sneReg : decodeWord 0b1001_0001_0010_0000 = .ok (.sneReg 1 2) := by decide
theorem test_decode_ldI : decodeWord 0b1010_0010_1111_0000 = .ok (.ldI 0x2F0) := by decide
theorem test_decode_jpV0 : decodeWord 0b1011_0011_0000_0001 = .ok (.jpV0 0x301) := by decide
theorem test_decode_rnd : decodeWord 0b1100_0011_0000_1111 = .ok (.rnd 3 0x0F) := by decide
theorem test_decode_drw : decodeWord 0b1101_0001_0010_0101 = .ok (.drw 1 2 5) := by decide
theorem test_decode_skp : decodeWord 0b1110_0010_1001_1110 = .ok (.skp 2) := by decide
theorem test_decode_sknp : decodeWord 0b1110_0010_1010_0001 = .ok (.sknp 2) := by decide
theorem test_decode_ldVxDT : decodeWord 0b1111_0011_0000_0111 = .ok (.ldVxDT 3) := by decide
theorem test_decode_ldVxK : decodeWord 0b1111_0101_0000_1010 = .ok (.ldVxK 5) := by decide
theorem test_decode_ldDTVx : decodeWord 0b1111_0001_0001_0101 = .ok (.ldDTVx 1) := by decide
theorem test_decode_ldSTVx : decodeWord 0b1111_0001_0001_1000 = .ok (.ldSTVx 1) := by decide
theorem test_decode_addIVx : decodeWord 0b1111_0010_0001_1110 = .ok (.addIVx 2) := by decide
theorem test_decode_ldFVx : decodeWord 0b1111_0001_0010_1001 = .ok (.ldFVx 1) := by decide
theorem test_decode_ldBVx : decodeWord 0b1111_0001_0011_0011 = .ok (.ldBVx 1) := by decide
theorem test_decode_ldMemVx : decodeWord 0b1111_0010_0101_0101 = .ok (.ldMemVx 2) := by decide
theorem test_decode_ldVxMem : decodeWord 0b1111_0010_0110_0101 = .ok (.ldVxMem 2) := by decide

/-- V20 to V24, one word of each class of the unknown space (R87). -/
theorem test_decode_unknown_class0 : decodeWord 0x0000 = .error (.unknownOpcode 0x0000) ∧
    decodeWord 0x0123 = .error (.unknownOpcode 0x0123) ∧
    decodeWord 0x00E1 = .error (.unknownOpcode 0x00E1) := by decide
theorem test_decode_unknown_class5_8_9 : decodeWord 0x5121 = .error (.unknownOpcode 0x5121) ∧
    decodeWord 0x8128 = .error (.unknownOpcode 0x8128) ∧
    decodeWord 0x812F = .error (.unknownOpcode 0x812F) ∧
    decodeWord 0x9121 = .error (.unknownOpcode 0x9121) := by decide
theorem test_decode_unknown_classE_F : decodeWord 0xE100 = .error (.unknownOpcode 0xE100) ∧
    decodeWord 0xF0FF = .error (.unknownOpcode 0xF0FF) := by decide

/-- A short byte sequence is rejected by its own name; what follows an instruction is left (R80). -/
theorem test_decode_bytes : decode [0x12] = .error .truncated ∧ decode [0x60, 0x0A, 0x61] = .ok (.ldImm 0 0x0A, [0x61]) := by
  decide

/-- `decodeTableWord` is that decoder on the table's bits. -/
theorem test_decodeTableWord : decodeTableWord 16 0xD015 = some (.drw 0 1 5) ∧ decodeTableWord 16 0x5121 = none := by
  decide

/-! ### One step of each instruction -/

/-- The reset state with some registers set. -/
def withRegs (l : List (Reg × Byte)) : State := l.foldl (fun s p => s.setReg p.1 p.2) State.reset

/-- The state after one step that fetches `w` at the program counter of `s`. -/
def after (w : Word) (s : State) : Option State :=
  match step (s.placeWord w) with
  | .next t => some t
  | _ => none

/-- The state in which a fault has been latched, and nothing else of interest. -/
def faultOf (o : Option State) : Option LatchedFault := o.bind (·.fault)

/-- V1 -/
theorem test_jp : (after 0x1234 State.reset).map (·.pc) = some 0x0234 := by decide
/-- V5 -/
theorem test_call : (after 0x2300 State.reset).map (fun t => (t.sp, t.stack[1], t.pc)) = some (1, 0x0202, 0x0300) := by
  decide
/-- V8 -/
theorem test_call_overflow : (after 0x2300 { State.reset with sp := 15 }).map (fun t => (t.fault, t.sp, t.pc)) =
    some (some ⟨.stackOverflow, 0x0200⟩, 15, 0x0200) := by decide
/-- V6 -/
theorem test_ret : (after 0x00EE { State.reset with sp := 1, stack := State.reset.stack.set 1 0x0202, pc := 0x0300 }).map
    (fun t => (t.sp, t.stack[1], t.pc)) = some (0, 0x0202, 0x0202) := by decide
/-- V9 -/
theorem test_ret_underflow : (after 0x00EE State.reset).map (fun t => (t.fault, t.sp, t.pc)) =
    some (some ⟨.stackUnderflow, 0x0200⟩, 0, 0x0200) := by decide
/-- V10, V11 -/
theorem test_seImm : (after 0x332A (withRegs [(3, 0x2A)])).map (·.pc) = some 0x0204 ∧
    (after 0x332A (withRegs [(3, 0x2B)])).map (·.pc) = some 0x0202 := by decide
/-- V12, V13 -/
theorem test_sneImm : (after 0x432A (withRegs [(3, 0x2A)])).map (·.pc) = some 0x0202 ∧
    (after 0x4300 (withRegs [(3, 0x2A)])).map (·.pc) = some 0x0204 := by decide
/-- V14, V15 -/
theorem test_seReg : (after 0x5120 (withRegs [(1, 7), (2, 7)])).map (·.pc) = some 0x0204 ∧
    (after 0x5330 State.reset).map (·.pc) = some 0x0204 := by decide
/-- V16, V17 -/
theorem test_sneReg : (after 0x9120 (withRegs [(1, 7), (2, 8)])).map (·.pc) = some 0x0204 ∧
    (after 0x9330 State.reset).map (·.pc) = some 0x0202 := by decide
/-- V18, V19 -/
theorem test_jpV0 : (after 0xB300 (withRegs [(0, 0x10)])).map (·.pc) = some 0x0310 ∧
    (after 0xBFFF (withRegs [(0, 0xFF)])).map (·.pc) = some 0x10FE := by decide
/-- V21, V28: no skip although equal, and the flag of the step before is gone. -/
theorem test_unknown : (after 0x5121 { withRegs [(1, 7), (2, 7)] with redraw := true }).map (fun t => (t.pc, t.redraw)) =
    some (0x0202, false) := by decide
/-- V3 -/
theorem test_fetch_fault : (after 0x1200 { State.reset with pc := 0x0FFF }).map (fun t => (t.fault, t.pc)) =
    some (some ⟨.fetchOutOfBounds, 0x0FFF⟩, 0x0FFF) := by decide
/-- V25 -/
theorem test_last_fetch : (after 0x1200 { State.reset with pc := 0x0FFE }).map (·.pc) = some 0x0200 := by decide
/-- V29 -/
theorem test_halted : (match instrStep ({ State.reset with fault := some ⟨.stackUnderflow, 0x0200⟩ }.placeWord 0x1234) with
    | .next t => t
    | _ => State.reset) = { State.reset with fault := some ⟨.stackUnderflow, 0x0200⟩ }.placeWord 0x1234 := by decide

/-- V61 -/
theorem test_ldImm : (after 0x6F2A State.reset).map (fun t => (t.reg 15, t.pc)) = some (0x2A, 0x0202) := by decide
/-- V62 -/
theorem test_addImm : (after 0x7220 (withRegs [(2, 0xF0), (15, 0x55)])).map (fun t => (t.reg 2, t.reg 15)) =
    some (0x10, 0x55) := by decide
/-- V64 -/
theorem test_ldReg : (after 0x8010 (withRegs [(1, 0x33)])).map (fun t => (t.reg 0, t.reg 1)) = some (0x33, 0x33) := by decide
/-- V65 -/
theorem test_orReg : (after 0x8011 (withRegs [(0, 0xF0), (1, 0x0F), (15, 1)])).map (fun t => (t.reg 0, t.reg 15)) =
    some (0xFF, 1) := by decide
/-- V66 -/
theorem test_andReg : (after 0x8012 (withRegs [(0, 0xF0), (1, 0x3C)])).map (·.reg 0) = some 0x30 := by decide
/-- V67 -/
theorem test_xorReg : (after 0x8013 (withRegs [(0, 0xF0), (1, 0x3C)])).map (·.reg 0) = some 0xCC := by decide
/-- V30, V31 -/
theorem test_addReg : (after 0x8014 (withRegs [(0, 0xFF), (1, 1)])).map (fun t => (t.reg 0, t.reg 15)) = some (0, 1) ∧
    (after 0x8014 (withRegs [(0, 0xFE), (1, 1), (15, 9)])).map (fun t => (t.reg 0, t.reg 15)) = some (0xFF, 0) := by decide
/-- V45, V47: the flag stays where `x` is 15; the old `VF` is the operand where `y` is 15. -/
theorem test_addReg_VF : (after 0x8F14 (withRegs [(15, 0xFF), (1, 1)])).map (·.reg 15) = some 1 ∧
    (after 0x80F4 (withRegs [(0, 0x10), (15, 1)])).map (fun t => (t.reg 0, t.reg 15)) = some (0x11, 0) := by decide
/-- V37, V39 -/
theorem test_subReg : (after 0x8015 (withRegs [(0, 0x33), (1, 0x33)])).map (fun t => (t.reg 0, t.reg 15)) = some (0, 1) ∧
    (after 0x8015 (withRegs [(0, 0x10), (1, 0x20)])).map (fun t => (t.reg 0, t.reg 15)) = some (0xF0, 0) := by decide
/-- V58 -/
theorem test_subReg_VF : (after 0x8F15 (withRegs [(15, 5), (1, 3)])).map (·.reg 15) = some 1 := by decide
/-- V48 -/
theorem test_shr : (after 0x8476 (withRegs [(4, 5), (7, 0xAA)])).map (fun t => (t.reg 4, t.reg 15, t.reg 7)) =
    some (2, 1, 0xAA) := by decide
/-- V56 -/
theorem test_shr_VF : (after 0x8F06 (withRegs [(15, 2)])).map (·.reg 15) = some 0 := by decide
/-- V41, V42 -/
theorem test_subnReg : (after 0x8017 (withRegs [(0, 0x10), (1, 0x20)])).map (fun t => (t.reg 0, t.reg 15)) =
    some (0x10, 1) ∧
    (after 0x8017 (withRegs [(0, 0x20), (1, 0x10)])).map (fun t => (t.reg 0, t.reg 15)) = some (0xF0, 0) := by decide
/-- V53, V55: 1, not 0x80. -/
theorem test_shl : (after 0x800E (withRegs [(0, 0xFF)])).map (fun t => (t.reg 0, t.reg 15)) = some (0xFE, 1) ∧
    (after 0x800E (withRegs [(0, 0x80)])).map (fun t => (t.reg 0, t.reg 15)) = some (0, 1) := by decide
/-- V57 -/
theorem test_shl_VF : (after 0x8F0E (withRegs [(15, 0x80)])).map (·.reg 15) = some 1 := by decide
/-- V69: the byte the host supplied, and the next one stays. -/
theorem test_rnd : (after 0xC00F { State.reset with rnd := [0xB7, 0x11] }).map (fun t => (t.reg 0, t.rnd)) =
    some (0x07, [0x11]) := by decide

/-- V72 -/
theorem test_ldI : (after 0xA2F0 State.reset).map (·.I) = some 0x02F0 := by decide
/-- V74, V74b -/
theorem test_addIVx : (after 0xF11E { withRegs [(1, 1), (15, 9)] with I := 0x0FFF }).map (fun t => (t.I, t.reg 15)) =
    some (0x1000, 9) ∧ (after 0xF11E { withRegs [(1, 0xFF)] with I := 0xFFF0 }).map (·.I) = some 0x00EF := by decide
/-- V79, V79c -/
theorem test_ldFVx : (after 0xF029 (withRegs [(0, 0x0A)])).map (·.I) = some 0x0032 ∧
    (after 0xF029 (withRegs [(0, 0xFF)])).map (·.I) = some 0x04FB := by decide
/-- V76b, T6 -/
theorem test_ldBVx : (after 0xF033 { withRegs [(0, 0x80)] with I := 0x0300 }).map
      (fun t => Memory.loadBytes t.mem 0x300 3) = some [1, 2, 8] ∧
    (after 0xF033 { withRegs [(0, 0xFF)] with I := 0x0FFD }).map (fun t => (Memory.loadBytes t.mem 0xFFD 3, t.I)) =
      some ([2, 5, 5], 0x0FFD) := by decide
/-- V78: no byte is written. -/
theorem test_ldBVx_fault : (after 0xF033 { withRegs [(0, 0xFF)] with I := 0x0FFE }).map
    (fun t => (t.fault, Memory.read t.mem 0xFFE, Memory.read t.mem 0xFFF, t.pc)) =
    some (some ⟨.memOutOfBounds, 0x1000⟩, 0, 0, 0x0200) := by decide
/-- V80 -/
theorem test_ldMemVx : (after 0xF255 { withRegs [(0, 0x11), (1, 0x22), (2, 0x33), (3, 0x44)] with I := 0x0300 }).map
    (fun t => (Memory.loadBytes t.mem 0x300 4, t.I)) = some ([0x11, 0x22, 0x33, 0], 0x0300) := by decide
/-- V84 -/
theorem test_ldMemVx_fault : faultOf (after 0xFF55 { State.reset with I := 0x0FF1 }) = some ⟨.memOutOfBounds, 0x1000⟩ := by
  decide
/-- V81 -/
theorem test_ldVxMem : (after 0xF265 { withRegs [(3, 0x44)] with
      I := 0x0300, mem := [(0x300, 0x11), (0x301, 0x22), (0x302, 0x33), (0x303, 0x55)] }).map
    (fun t => (t.reg 0, t.reg 1, t.reg 2, t.reg 3, t.I)) = some (0x11, 0x22, 0x33, 0x44, 0x0300) := by decide
/-- V88 -/
theorem test_ldVxMem_fault : faultOf (after 0xF065 { State.reset with I := 0x2345 }) = some ⟨.memOutOfBounds, 0x2345⟩ := by
  decide

/-- V90 -/
theorem test_cls : (after 0x00E0 { withRegs [(15, 0x55)] with vb := Vector.replicate 32 (-1), redraw := true }).map
    (fun t => (t.vb == Vector.replicate 32 0, t.reg 15, t.redraw)) = some (true, 0x55, false) := by decide

/-- The sprite of section 2.4 of the vectors, at 0x300, and one display row. -/
def withSprite (l : List (Reg × Byte)) (row0 : PixelRow) : State :=
  { withRegs l with
    I := 0x0300, mem := [(0x300, 0xFF), (0x301, 0x81), (0x302, 0xFF)], vb := (Vector.replicate 32 0#64).set 0 row0 }

/-- V101: bits 0 to 3 and 8 to 11 of row 0, collision. -/
theorem test_drw : (after 0xD011 (withSprite [(0, 4), (1, 0)] 0xFF)).map (fun t => (t.vb[0], t.reg 15, t.redraw, t.pc)) =
    some (0xF0F, 1, true, 0x0202) := by decide
/-- V94, V106: clipping at both edges; the old `VF` is the coordinate. -/
theorem test_drw_clip : (after 0xD013 (withSprite [(0, 0xFF), (1, 0xFF)] 0)).map (fun t => (t.vb[0], t.vb[31], t.reg 15)) =
      some (0, 0x8000000000000000, 0) ∧
    (after 0xDF11 (withSprite [(15, 2)] 0)).map (fun t => (t.vb[0], t.reg 15)) = some (0x3FC, 0) := by decide

/-- V108, V109 -/
theorem test_skp : (after 0xE29E { withRegs [(2, 0x0A)] with keys := 0x0400 }).map (·.pc) = some 0x0204 ∧
    (after 0xE29E (withRegs [(2, 0x0A)])).map (·.pc) = some 0x0202 := by decide
/-- V111a -/
theorem test_skp_fault : faultOf (after 0xE09E { withRegs [(0, 0x1A)] with keys := 0x0400 }) =
    some ⟨.keyIndexOutOfRange, 0x001A⟩ := by decide
/-- V110, V110a -/
theorem test_sknp : (after 0xE2A1 (withRegs [(2, 0x0A)])).map (·.pc) = some 0x0204 ∧
    (after 0xE2A1 { withRegs [(2, 0x0A)] with keys := 0x0400 }).map (·.pc) = some 0x0202 := by decide
/-- V111 -/
theorem test_sknp_fault : faultOf (after 0xE0A1 (withRegs [(0, 0x10)])) = some ⟨.keyIndexOutOfRange, 0x0010⟩ := by decide
/-- V115 -/
theorem test_ldVxDT : (after 0xF307 { State.reset with DT := 0x2C }).map (fun t => (t.reg 3, t.DT)) = some (0x2C, 0x2C) := by
  decide
/-- V112 -/
theorem test_ldVxK_blocks : (after 0xF10A (withRegs [(1, 0x77)])).map (fun t => (t.pc, t.reg 1)) = some (0x0200, 0x77) := by
  decide
/-- V113, V114a -/
theorem test_ldVxK : (after 0xF10A { State.reset with keys := 0x0088 }).map (fun t => (t.reg 1, t.pc)) = some (3, 0x0202) ∧
    (after 0xF10A { withRegs [(1, 9)] with keys := 0x0001 }).map (·.reg 1) = some 0 := by decide
/-- V116 -/
theorem test_ldDTVx : (after 0xF015 (withRegs [(0, 0x3C)])).map (fun t => (t.DT, t.ST)) = some (0x3C, 0) := by decide
/-- V117 -/
theorem test_ldSTVx : (after 0xF018 (withRegs [(0, 5)])).map (fun t => (t.ST, t.DT, t.beep)) = some (5, 0, true) := by
  decide

/-- V118, V119 -/
theorem test_timer_step : (timerStep { State.reset with DT := 3, ST := 1 }).DT = 2 ∧
    (timerStep { State.reset with DT := 3, ST := 1 }).beep = false ∧ (timerStep State.reset).DT = 0 := by decide
/-- R228: 540/60 = 9 instruction steps to a timer step; 500/60 = 8.33, so 8 or 9. -/
theorem test_rates : Clocks.events 20 (.rate 540 0) =
      (List.replicate 9 .instrTick ++ [.timerTick]) ++ (List.replicate 9 .instrTick ++ [.timerTick]) ∧
    Clocks.events 20 (.rate 500 0) =
      (List.replicate 9 .instrTick ++ [.timerTick]) ++ (List.replicate 8 .instrTick ++ [.timerTick]) ++ [.instrTick] := by
  decide
/-- V129: an odd ROM, and the word its last byte starts. -/
theorem test_rom_load : Memory.loadBytes (romLoad [0x60, 0x0A, 0x61] State.reset).mem 0x200 4 = [0x60, 0x0A, 0x61, 0] ∧
    ({ romLoad [0x60, 0x0A, 0x61] State.reset with pc := 0x0202 } : State).fetchedWord = 0x6100 := by decide
/-- Writing what an unlisted address holds removes the entry, so equal memories are equal data. -/
theorem test_memory_canonical : Memory.write (Memory.write [] 0x300 7) 0x300 0 = [] ∧
    Memory.write (Memory.write [] 0x301 7) 0x300 8 = [(0x300, 8), (0x301, 7)] ∧
    Memory.wf (Memory.write [] 0 0xF0) = true := by decide
/-- The host's two questions: from reset, `withFetchWord` places the word that the step runs. -/
theorem test_withFetchWord : (match step (State.reset.withFetchWord 16 0x6A2A) with
    | .next t => t.reg 10
    | _ => 0) = 0x2A := by decide

/-! ### Witnesses: states and operands that meet the hypotheses of a statement together, named after it; a statement
with several clauses has one for each, at the boundary values of its ranges -/

/-- The reset state with the program counter, `I` and `sp` given. -/
def at3 (pc I : Word) (sp : Fin 16) : State := { State.reset with pc := pc, I := I, sp := sp }

/-- The reset state with a fault latched. -/
def faulted : State := { State.reset with fault := some ⟨.stackUnderflow, 0x0200⟩ }

theorem witness_OpcodeMapSelectsByMaskAndMatch : opcodeMap.any (fun r => 0x1234#16 &&& r.mask == r.value) = true := by
  decide

theorem witness_UnknownOpcodeExactlyOutsideTheMap :
    (∃ p ∈ opcodeMap, 0x8F14#16 &&& p.mask = p.value) ∧ (∀ row ∈ opcodeMap, 0x0000#16 &&& row.mask ≠ row.value) ∧
      decodeWord 0x0000 = .error (.unknownOpcode 0x0000) := by
  refine ⟨⟨opcodeMap[13], List.getElem_mem _, by decide⟩, by decide, by decide⟩

theorem witness_DecodeOfEncodeIsTheInstruction :
    (Instr.jp 0xFFF).WellFormed ∧ (Instr.drw 15 15 15).WellFormed ∧ Instr.cls.WellFormed := by decide

theorem witness_EncodeOfDecodeIsTheWord :
    decodeWord 0x1FFF = .ok (.jp 0xFFF) ∧ decodeWord 0x8FFE = .ok (.shl 15 15) := by decide

/-- A listed event, the clocks at a rate, the rate 1, and the free schedule. -/
theorem witness_StepPerformsTheNextEvent :
    ({ State.reset with pending := [.timerTick] } : State).pending = .timerTick :: [] ∧
      State.reset.pending = [] ∧ 0 < 540 ∧ 0 < 1 ∧ State.reset.clocks = .rate 540 0 ∧
      ({ State.reset with clocks := .free 7 } : State).pending = [] := by decide

/-- At the last address a word can be fetched from, with nothing and with a tick listed. -/
theorem witness_StepRunsTheDecodedInstruction :
    let s := (at3 0x0FFE 0 0).placeWord 0x1234
    let s' := { s with pending := [.instrTick, .timerTick] }
    s.Running ∧ s.pc.toNat ≤ 0xFFE ∧
      decode [Memory.read s.mem s.pc.toNat, Memory.read s.mem (s.pc.toNat + 1)] = .ok (.jp 0x234, []) ∧
      (s.pending = [] ∧ s.clocks.next = (.instrTick, .rate 540 60)) ∧ s'.pending = .instrTick :: [.timerTick] := by decide

theorem witness_UnknownWordOnlyAdvances :
    State.reset.Running ∧ State.reset.pc.toNat ≤ 0xFFE ∧
      ∀ row ∈ opcodeMap, State.reset.fetchedWord &&& row.mask ≠ row.value := by decide

theorem inv_at3 (pc I : Word) (h : pc.toNat ≤ 0x10FE) : Inv (at3 pc I 0) where
  memory := rfl
  pc := h
  base := rfl
  live := fun _ h1 h2 => absurd (Nat.le_trans h1 h2) (Nat.not_succ_le_zero 0)
  fault := fun f hf => by cases hf

/-- The first and the last address of the range. -/
theorem witness_FetchOutOfRangeLatchesItsFault :
    ((at3 0x0FFF 0 0).Running ∧ 0xFFE < (at3 0x0FFF 0 0).pc.toNat ∧ Inv (at3 0x0FFF 0 0)) ∧
      (0xFFE < (at3 0x10FE 0 0).pc.toNat ∧ Inv (at3 0x10FE 0 0)) :=
  ⟨⟨rfl, by decide, inv_at3 _ _ (by decide)⟩, by decide, inv_at3 _ _ (by decide)⟩

theorem witness_LatchedFaultHaltsUntilReset :
    (∃ t, instrStep (State.reset.placeWord 0x00EE) = .next t ∧ t.fault ≠ none) ∧
      faulted.fault = some ⟨.stackUnderflow, 0x0200⟩ ∧ Event.timerTick ≠ .reset :=
  ⟨⟨_, rfl, by decide⟩, by decide, by decide⟩

/-- Each row of the table of faults, on both sides of its boundary. -/
theorem witness_InstructionsFaultExactlyAsTheTableSays :
    tableFault (at3 0x200 0 0) .ret = some ⟨.stackUnderflow, 0x200⟩ ∧ tableFault (at3 0x200 0 1) .ret = none ∧
      tableFault (at3 0x200 0 15) (.call 0) = some ⟨.stackOverflow, 0x200⟩ ∧ tableFault (at3 0x200 0 14) (.call 0) = none ∧
      tableFault (at3 0x200 0xFFE 0) (.ldBVx 0) = some ⟨.memOutOfBounds, 0x1000⟩ ∧
      tableFault (at3 0x200 0xFFD 0) (.ldBVx 0) = none ∧
      tableFault (at3 0x200 0x2345 0) (.ldMemVx 0) = some ⟨.memOutOfBounds, 0x2345⟩ ∧
      tableFault (at3 0x200 0xFF0 0) (.ldMemVx 15) = none ∧
      tableFault (at3 0x200 0xFFF 0) (.ldVxMem 1) = some ⟨.memOutOfBounds, 0x1000⟩ ∧
      tableFault (at3 0x200 0xFFF 0) (.ldVxMem 0) = none ∧
      tableFault (at3 0x200 0xFFE 0) (.drw 0 0 3) = some ⟨.memOutOfBounds, 0x1000⟩ ∧
      tableFault (at3 0x200 0x1234 0) (.drw 0 0 0) = none ∧ tableFault (at3 0x200 0xFFD 0) (.drw 0 0 3) = none ∧
      tableFault (withRegs [(0, 16)]) (.skp 0) = some ⟨.keyIndexOutOfRange, 16⟩ ∧
      tableFault (withRegs [(0, 15)]) (.skp 0) = none ∧ tableFault (withRegs [(0, 15)]) (.sknp 0) = none := by
  decide

theorem witness_AStepLatchesTheFaultOfTheTable :
    (at3 0x0FFF 0 0).Running ∧ 0xFFE < (at3 0x0FFF 0 0).pc.toNat ∧ ¬0xFFE < (at3 0x0FFE 0 0).pc.toNat ∧
      decodeWord (State.reset.placeWord 0x00EE).fetchedWord = .ok .ret ∧
      decodeWord State.reset.fetchedWord = .error (.unknownOpcode 0) := by decide

/-- Each of the five signals, without a fault. -/
theorem witness_SignalsMoveTheProgramCounter :
    (tableFault State.reset (.ldI 5) = none ∧ tableSignal State.reset (.ldI 5) = .advance) ∧
      (tableFault State.reset (.drw 0 0 1) = none ∧ tableSignal State.reset (.drw 0 0 1) = .advanceAndRedraw) ∧
      (tableFault State.reset (.seImm 0 0) = none ∧ tableSignal State.reset (.seImm 0 0) = .skip) ∧
      (tableFault State.reset (.jp 0xFFF) = none ∧ tableSignal State.reset (.jp 0xFFF) = .jump 0xFFF) ∧
      (tableFault State.reset (.ldVxK 0) = none ∧ tableSignal State.reset (.ldVxK 0) = .block) ∧
      (at3 0x0FFE 0 0).pc.toNat ≤ 0xFFE := by decide

theorem witness_RedrawExactlyAfterADraw :
    (∃ t, instrStep (State.reset.placeWord 0xD000) = .next t ∧ t.fault = none ∧ t.redraw = true) ∧
      (∃ t, instrStep State.reset = .next t ∧ t.fault = none ∧ t.redraw = false) ∧
      (∃ t, performEvent .timerTick State.reset = .next t) ∧ Event.timerTick ≠ .instrTick ∧ Event.timerTick ≠ .reset :=
  ⟨⟨_, rfl, by decide, by decide⟩, ⟨_, rfl, by decide, by decide⟩, ⟨_, rfl⟩, by decide, by decide⟩

/-- A key wait at the last address a word can be fetched from: one tick finds no key, then the host presses key 3. -/
def keyWait : State :=
  { (at3 0x0FFE 0 0).placeWord 0xF50A with pending := [.instrTick, .timerTick, .driveKeys 0x0088] }

theorem witness_OnlyWaitsAndSelfTransfersLeaveThePc_keyWait :
    keyWait.Running ∧ keyWait.pc.toNat ≤ 0xFFE ∧ decodeWord keyWait.fetchedWord = .ok (.ldVxK 5) ∧
      TicksAndKeysOnly keyWait ∧ KeyEventuallyPressed keyWait :=
  ⟨rfl, by decide, by decide,
    ticksAndKeysOnly_of_rate (hz := 540) (phase := 0) rfl (by simp [keyWait]), 3, by decide, by decide⟩

/-- A program that jumps to itself while `DT` runs out, at one instruction step to a timer step. -/
def spin (DT : Byte) : State := { State.reset.placeWord 0x1200 with DT := DT, clocks := .rate 60 0 }

/-- Once `DT` is 0 the two steps repeat for ever. -/
theorem spin_steps (n : Nat) : (spin 0).afterSteps n = (spin 0).afterSteps (n % 2) := by
  have h2 : (spin 0).afterSteps 2 = spin 0 := by decide
  induction n using Nat.strongRecOn with
  | ind n ih =>
    match n with
    | 0 | 1 => rfl
    | n + 2 =>
      rw [Nat.add_comm, State.afterSteps_add, h2, Nat.add_mod_left]
      exact ih n (by omega)

theorem spin_runs (n : Nat) : (spin 1).afterSteps (2 + n) = (spin 0).afterSteps (n % 2) := by
  have h2 : (spin 1).afterSteps 2 = spin 0 := by decide
  rw [State.afterSteps_add, h2, spin_steps]

/-- What is true of the first four steps of `spin 1` is true of every one. -/
theorem spin_all {P : State → State → Prop} (h : ∀ k, k < 4 → P ((spin 1).afterSteps k) ((spin 1).afterSteps k).afterStep)
    (n : Nat) : P ((spin 1).afterSteps n) ((spin 1).afterSteps n).afterStep := by
  match n with
  | 0 => exact h 0 (by decide)
  | 1 => exact h 1 (by decide)
  | n + 2 =>
    have e : (spin 1).afterSteps (n + 2) = (spin 1).afterSteps (2 + n % 2) := by
      rw [Nat.add_comm, spin_runs, spin_runs, Nat.mod_mod]
    rw [e]
    exact h _ (by omega)

theorem witness_OnlyWaitsAndSelfTransfersLeaveThePc_delay :
    (∀ n, ((spin 1).afterSteps n).Running) ∧ TimerStepsRecur (spin 1) ∧
      (∀ n, ((spin 1).afterSteps n).nextEvent ≠ .timerTick →
        ((spin 1).afterSteps (n + 1)).DT = ((spin 1).afterSteps n).DT) := by
  refine ⟨spin_all (P := fun s _ => s.Running) (by decide), fun n => ⟨2 + (2 * n + 1), by omega, ?_⟩, fun n => ?_⟩
  · rw [spin_runs, Nat.mul_add_mod]
    decide
  · rw [State.afterSteps_succ]
    exact spin_all (P := fun s t => s.nextEvent ≠ .timerTick → t.DT = s.DT) (by decide) n

/-- A wait, and the four transfers to the own address. -/
theorem witness_OnlyWaitsAndSelfTransfersLeaveThePc :
    let back : State := { State.reset with sp := 1, stack := State.reset.stack.set 1 0x0200 }
    (∃ t, exec (.ldVxK 0) State.reset = .next t ∧ t.pc = State.reset.pc) ∧
      (∃ t, exec (.jp 0x200) State.reset = .next t ∧ t.pc = State.reset.pc) ∧
      (tableFault State.reset (.call 0x200) = none ∧ ∃ t, exec (.call 0x200) State.reset = .next t ∧ t.pc = State.reset.pc) ∧
      (∃ t, exec (.jpV0 0x200) State.reset = .next t ∧ t.pc = State.reset.pc) ∧
      (tableFault back .ret = none ∧ ∃ t, exec .ret back = .next t ∧ t.pc = back.pc) :=
  ⟨⟨_, rfl, rfl⟩, ⟨_, rfl, rfl⟩, ⟨by decide, _, rfl, rfl⟩, ⟨_, rfl, rfl⟩, by decide, _, rfl, rfl⟩

/-- The invariant holds at reset, after a call, and with a fault latched; from each of them a step runs. -/
theorem witness_EveryStepKeepsTheInvariant :
    (Inv (at3 0x0200 0 0) ∧ ∃ t, step (at3 0x0200 0 0) = .next t) ∧
      (Inv { State.reset with sp := 1, stack := State.reset.stack.set 1 0x1000 }) ∧
      (Inv faulted ∧ ∃ t, step faulted = .next t) := by
  refine ⟨⟨inv_at3 _ _ (by decide), _, rfl⟩, ⟨rfl, by decide, by decide, by decide, fun f hf => by cases hf⟩,
    ⟨rfl, by decide, by decide, by decide, fun f hf => by cases hf; exact ⟨rfl, rfl⟩⟩, _, rfl⟩

theorem witness_FlagIsWrittenByTheSixAlone :
    (tableFault State.reset (.addReg 0 1) = none ∧ writesFlag (.addReg 0 1) = true ∧
        ∃ t, exec (.addReg 0 1) State.reset = .next t) ∧
      (tableFault State.reset (.ldImm 14 7) = none ∧ writesFlag (.ldImm 14 7) = false ∧
        (15 : Reg) ∉ destinations (.ldImm 14 7) ∧ ∃ t, exec (.ldImm 14 7) State.reset = .next t) :=
  ⟨⟨by decide, by decide, _, rfl⟩, by decide, by decide, by decide, _, rfl⟩

/-- For each clause an instruction that does write that element. -/
theorem witness_OnlyTheNamedInstructionsWrite :
    (∃ t, exec (.ldI 5) State.reset = .next t ∧ t.I ≠ State.reset.I) ∧
      (∃ t, exec (.ldDTVx 0) (withRegs [(0, 5)]) = .next t ∧ t.DT ≠ (withRegs [(0, 5)]).DT) ∧
      (∃ t, exec (.ldSTVx 0) (withRegs [(0, 5)]) = .next t ∧ t.ST ≠ (withRegs [(0, 5)]).ST) ∧
      (∃ t, exec (.ldBVx 0) (at3 0x200 0x300 0 |>.setReg 0 5) = .next t ∧ t.mem ≠ []) ∧
      (∃ t, exec .cls (withSprite [] 1) = .next t ∧ t.vb ≠ (withSprite [] 1).vb) ∧
      (∃ t, exec (.call 0x300) State.reset = .next t ∧ t.sp ≠ State.reset.sp ∧ t.stack ≠ State.reset.stack) ∧
      (∃ t, exec (.rnd 0 0) State.reset = .next t ∧ t.drawn ≠ State.reset.drawn) :=
  ⟨⟨_, rfl, by decide⟩, ⟨_, rfl, by decide⟩, ⟨_, rfl, by decide⟩, ⟨_, rfl, by decide⟩, ⟨_, rfl, by decide⟩,
    ⟨_, rfl, by decide, by decide⟩, _, rfl, by decide⟩

theorem witness_NoInstructionReadsTheSoundTimer : ∃ t, instrStep (State.reset.placeWord 0xF118) = .next t := ⟨_, rfl⟩

theorem witness_KeysAreReadByTheKeyInstructionsAlone :
    (∃ t, exec (.ldImm 0 1) State.reset = .next t) ∧ ∃ t, exec (.skp 0) State.reset = .next t := ⟨⟨_, rfl⟩, _, rfl⟩

theorem witness_TimerStepCountsBothTimersDown : State.reset.Running ∧ ¬faulted.Running := by decide

theorem witness_BeepIsSampledOneTickLess : ({ State.reset with ST := 3 } : State).Running := by decide

theorem witness_RomLoadCopiesVerbatimOrRefuses :
    (List.replicate 3584 (0x60 : Byte)).length ≤ 3584 ∧ ([] : List Byte).length ≤ 3584 ∧
      3584 < (List.replicate 3585 (0x60 : Byte)).length := by
  simp only [List.length_replicate, List.length_nil]
  omega

theorem witness_VideoBufferViewIsRowMajor : 63 < 64 ∧ 31 < 32 := by decide

theorem witness_RetPopsTheReturnAddress :
    (at3 0x200 0 0).sp = 0 ∧ (at3 0x200 0 1).sp ≠ 0 ∧ (at3 0x200 0 15).sp ≠ 0 := by decide

theorem witness_CallPushesTheReturnAddress :
    (at3 0x200 0 15).sp = 15 ∧ (at3 0x200 0 14).sp ≠ 15 ∧ (at3 0x200 0 0).sp ≠ 15 := by decide

theorem witness_ReturnComesBackAfterTheCall : (at3 0x200 0 14).sp ≠ 15 := by decide

theorem witness_JpV0AddsTheOffset : (0x0FFF#16).toNat ≤ 0xFFF := by decide

/-- The flag instructions on another register than `VF`; on `VF` itself `test_addReg_VF` and its like run. -/
theorem witness_flag_instructions_x_not_15 : (14 : Reg) ≠ 15 ∧ (0 : Reg) ≠ 15 := by decide

theorem witness_RndMasksARandomByte :
    ({ State.reset with rnd := [0xB7] } : State).rnd = 0xB7 :: [] ∧
      (∀ x kk, Instr.cls ≠ .rnd x kk) ∧ ∃ t, exec .cls State.reset = .next t :=
  ⟨by decide, fun _ _ h => Instr.noConfusion h, _, rfl⟩

theorem witness_LdBStoresTheDecimalDigits :
    (at3 0x200 0x0FFD 0).I.toNat + 2 ≤ 0xFFF ∧ 0xFFF < (at3 0x200 0x0FFE 0).I.toNat + 2 := by decide

theorem witness_LdMemStoresTheRegisters :
    ((at3 0x200 0x0FF0 0).I.toNat + (15 : Reg).val ≤ 0xFFF ∧ (15 : Reg) ≤ 15) ∧
      0xFFF < (at3 0x200 0x0FF1 0).I.toNat + (15 : Reg).val := by decide

theorem witness_LdVxMemLoadsTheRegisters :
    ((at3 0x200 0x0FFF 0).I.toNat + (0 : Reg).val ≤ 0xFFF ∧ (0 : Reg) ≤ 0) ∧
      0xFFF < (at3 0x200 0x1000 0).I.toNat + (0 : Reg).val := by decide

theorem witness_DumpThenLoadRestoresTheRegisters :
    (at3 0x200 0x0FF0 0).I.toNat + (15 : Reg).val ≤ 0xFFF ∧ ∃ t, exec (.ldMemVx 15) (at3 0x200 0x0FF0 0) = .next t :=
  ⟨by decide, _, rfl⟩

/-- No row at all, fifteen rows up to the last byte of memory, one row past it; a covered and an uncovered cell. -/
theorem witness_DrwTogglesTheCoveredCells :
    ((0 : Nat) = 0 ∨ (at3 0x200 0xFFFF 0).I.toNat + 0 - 1 ≤ 0xFFF) ∧
      ((15 : Nat) = 0 ∨ (at3 0x200 0x0FF1 0).I.toNat + 15 - 1 ≤ 0xFFF) ∧
      (1 ≤ 1 ∧ 0xFFF < (at3 0x200 0x1000 0).I.toNat + 1 - 1) ∧
      SpriteCovers (withSprite [(0, 63), (1, 31)] 0) 0 1 1 63 31 ∧
      ¬SpriteCovers (withSprite [] 0) 0 1 0 0 0 :=
  ⟨by decide, by decide, by decide, ⟨0, 0, by decide⟩, fun ⟨_, _, h, _⟩ => absurd h (Nat.not_lt_zero _)⟩

/-- Two draws at the same place, and with `VF` as a coordinate. -/
theorem witness_DrawingTwiceRestoresTheDisplay :
    (∃ t, exec (.drw 0 1 3) (withSprite [] 0) = .next t ∧
        (t.reg 0).toNat % 64 = ((withSprite [] 0).reg 0).toNat % 64 ∧
        (t.reg 1).toNat % 32 = ((withSprite [] 0).reg 1).toNat % 32) ∧
      (∃ t, exec (.drw 15 15 3) (withSprite [] 0) = .next t ∧
        (t.reg 15).toNat % 64 = ((withSprite [] 0).reg 15).toNat % 64 ∧
        (t.reg 15).toNat % 32 = ((withSprite [] 0).reg 15).toNat % 32) :=
  ⟨⟨_, rfl, by decide, by decide⟩, _, rfl, by decide, by decide⟩

theorem witness_SkipsOnAKey :
    ((withRegs [(0, 15)]).reg 0).toNat ≤ 15 ∧ 15 < ((withRegs [(0, 16)]).reg 0).toNat := by decide

/-- Key 15 alone, key 0, and no key. -/
theorem witness_LdVxKWaitsForTheLowestKey :
    ((0x8000#16).getLsbD 15 = true ∧ ∀ j < 15, (0x8000#16).getLsbD j = false) ∧ (0x0001#16).getLsbD 0 = true ∧
      State.reset.keys = 0x0000#16 := by decide

end Sys2Proof.Tests
end

/-! ## The schedule: what a step performs, and that both kinds of tick recur (R8, R228, R252) -/

namespace Sys2Proof.Machine

/-! ### Every step answers a next state -/

/-- An instruction answers a next state from every state: a fault of the spec is one too. -/
theorem exec_next (i : Instr) (s : State) : ∃ t, exec i s = .next t := by
  obtain ⟨f, -, hf⟩ | ⟨-, u, hu, -⟩ := exec_cases i s
  · exact ⟨_, hf⟩
  · exact ⟨_, hu⟩

theorem instrStep_next (s : State) : ∃ t, instrStep s = .next t := by
  rw [instrStep_eq]
  split
  · exact ⟨s, rfl⟩
  · split
    · split
      · exact exec_next _ s
      · exact ⟨_, rfl⟩
    · exact ⟨_, rfl⟩

theorem performEvent_next (e : Event) (s : State) : ∃ t, performEvent e s = .next t := by
  cases e with
  | instrTick => exact instrStep_next s
  | timerTick | driveKeys | romLoad | reset => exact ⟨_, rfl⟩

theorem step_next (s : State) : ∃ t, step s = .next t := performEvent_next s.nextEvent s.takeEvent

theorem step_afterStep (s : State) : step s = .next s.afterStep := by
  obtain ⟨t, ht⟩ := step_next s
  rw [State.afterStep, ht]

/-! ### The schedule after a step -/

section
variable {s : State} {hz phase : Nat}

theorem State.afterStep_listed {e : Event} {later : List Event} (h : s.pending = e :: later) :
    s.afterStep.pending = later ∧ s.afterStep.clocks = s.clocks := by
  simpa only [(State.next_listed h).2] using step_schedule (step_afterStep s)

theorem State.afterStep_unlisted (h : s.pending = []) :
    s.afterStep.pending = [] ∧ s.afterStep.clocks = s.clocks.next.2 := by
  simpa only [(State.next_unlisted h).2, h] using step_schedule (step_afterStep s)

theorem Clocks.next_rate_timer (h : hz ≤ phase) :
    (Clocks.rate hz phase).next = (.timerTick, .rate hz (phase - hz)) := if_pos h

theorem Clocks.next_rate_instr (h : phase < hz) :
    (Clocks.rate hz phase).next = (.instrTick, .rate hz (phase + 60)) := if_neg (Nat.not_le.mpr h)

theorem Clocks.next_rate (hz phase : Nat) : ∃ phase', (Clocks.rate hz phase).next.2 = .rate hz phase' := by
  obtain h | h := Nat.lt_or_ge phase hz
  · exact ⟨_, by rw [Clocks.next_rate_instr h]⟩
  · exact ⟨_, by rw [Clocks.next_rate_timer h]⟩

/-- Clocks at a rate stay at that rate: no step changes which schedule the outside follows. -/
theorem State.afterStep_rate (h : s.clocks = .rate hz phase) : ∃ phase', s.afterStep.clocks = .rate hz phase' := by
  cases hp : s.pending with
  | cons e later => exact ⟨phase, (State.afterStep_listed hp).2.trans h⟩
  | nil => rw [(State.afterStep_unlisted hp).2, h]; exact Clocks.next_rate hz phase

theorem State.afterSteps_rate (h : s.clocks = .rate hz phase) (n : Nat) :
    ∃ phase', (s.afterSteps n).clocks = .rate hz phase' := by
  induction n generalizing s phase with
  | zero => exact ⟨phase, h⟩
  | succ n ih =>
    obtain ⟨phase', h'⟩ := State.afterStep_rate h
    exact ih h'

/-! ### Both kinds of tick come again -/

/-- Some step of the run from `s` performs the event `e`. -/
def EventuallyNext (e : Event) (s : State) : Prop := ∃ m, (s.afterSteps m).nextEvent = e

theorem EventuallyNext.now {e : Event} (h : s.nextEvent = e) : EventuallyNext e s := ⟨0, h⟩

theorem EventuallyNext.later {e : Event} (h : EventuallyNext e s.afterStep) : EventuallyNext e s :=
  let ⟨m, hm⟩ := h
  ⟨m + 1, hm⟩

/-- Every instruction tick brings the phase 60 nearer to `hz`, where a timer tick is due. -/
theorem eventually_timerTick_of_unlisted (hp : s.pending = []) (hc : s.clocks = .rate hz phase) :
    EventuallyNext .timerTick s := by
  induction hd : hz - phase using Nat.strongRecOn generalizing s phase with
  | ind d ih =>
    obtain h | h := Nat.lt_or_ge phase hz
    · obtain ⟨hp', hc'⟩ := State.afterStep_unlisted hp
      rw [hc, Clocks.next_rate_instr h] at hc'
      exact .later (ih (hz - (phase + 60)) (by omega) hp' hc' rfl)
    · exact .now (by rw [(State.next_unlisted hp).1, hc, Clocks.next_rate_timer h])

/-- Every timer tick takes `hz` from the phase, until it is below `hz`. -/
theorem eventually_instrTick_of_unlisted (hpos : 0 < hz) (hp : s.pending = []) (hc : s.clocks = .rate hz phase) :
    EventuallyNext .instrTick s := by
  induction phase using Nat.strongRecOn generalizing s with
  | ind phase ih =>
    obtain h | h := Nat.lt_or_ge phase hz
    · exact .now (by rw [(State.next_unlisted hp).1, hc, Clocks.next_rate_instr h])
    · obtain ⟨hp', hc'⟩ := State.afterStep_unlisted hp
      rw [hc, Clocks.next_rate_timer h] at hc'
      exact .later (ih (phase - hz) (by omega) hp' hc')

/-- The listed events are finitely many and leave the clocks alone, so what the clocks bring comes after them. -/
theorem eventually_of_unlisted {e : Event}
    (hu : ∀ {t : State}, t.pending = [] → t.clocks = s.clocks → EventuallyNext e t) : EventuallyNext e s := by
  induction hp : s.pending generalizing s with
  | nil => exact hu hp rfl
  | cons e' later ih =>
    obtain ⟨hp', hc'⟩ := State.afterStep_listed hp
    exact .later (ih (fun ht hct => hu ht (hct.trans hc')) hp')

/-- What comes eventually from every state at a rate comes for ever: every later state of the run is at that rate. -/
theorem recurs_of_eventually {e : Event}
    (hev : ∀ {t : State} {phase' : Nat}, t.clocks = .rate hz phase' → EventuallyNext e t)
    (hc : s.clocks = .rate hz phase) (n : Nat) : ∃ m, n ≤ m ∧ (s.afterSteps m).nextEvent = e := by
  obtain ⟨_, hn⟩ := State.afterSteps_rate hc n
  obtain ⟨k, hk⟩ := hev hn
  exact ⟨n + k, Nat.le_add_right n k, by rw [State.afterSteps_add, hk]⟩

theorem fairSchedule_of_rate (hpos : 0 < hz) (hc : s.clocks = .rate hz phase) : FairSchedule s where
  timer := recurs_of_eventually
    (fun ht => eventually_of_unlisted fun hp hct => eventually_timerTick_of_unlisted hp (hct.trans ht)) hc
  instr := recurs_of_eventually
    (fun ht => eventually_of_unlisted fun hp hct => eventually_instrTick_of_unlisted hpos hp (hct.trans ht)) hc

/-! ### The ratio of the two ticks -/

/-- Clocks at a rate issue ticks alone, and the phase accounts for them: it gains 60 an instruction tick, loses `hz` a
timer tick and stays below `hz + 60`. -/
theorem Clocks.count_events_rate (n : Nat) (hphase : phase < hz + 60) :
    (Clocks.events n (.rate hz phase)).count .instrTick + (Clocks.events n (.rate hz phase)).count .timerTick = n ∧
    ∃ phase', phase' < hz + 60 ∧
      phase + 60 * (Clocks.events n (.rate hz phase)).count .instrTick =
        hz * (Clocks.events n (.rate hz phase)).count .timerTick + phase' := by
  induction n generalizing phase with
  | zero => exact ⟨rfl, phase, hphase, by simp [Clocks.events]⟩
  | succ n ih =>
    obtain h | h := Nat.lt_or_ge phase hz
    · obtain ⟨hsum, phase', hlt, heq⟩ := ih (phase := phase + 60) (by omega)
      simp only [Clocks.events, Clocks.next_rate_instr h, List.count_cons_self,
        List.count_cons_of_ne (show Event.instrTick ≠ Event.timerTick by decide)]
      exact ⟨by omega, phase', hlt, by omega⟩
    · obtain ⟨hsum, phase', hlt, heq⟩ := ih (phase := phase - hz) (by omega)
      simp only [Clocks.events, Clocks.next_rate_timer h, List.count_cons_self,
        List.count_cons_of_ne (show Event.timerTick ≠ Event.instrTick by decide), Nat.mul_succ]
      exact ⟨by omega, phase', hlt, by omega⟩

end

/-- Settles O7: the schedule's own lemmas for a listed and an unlisted event; recurrence by descent on the phase after
the finitely many listed events; the ratio by the phase's account of the ticks. -/
theorem stepPerformsTheNextEvent : Obligations.StepPerformsTheNextEvent := by
  refine ⟨fun s e later h => ?_, fun s h => ?_, fun _ => rfl, fun _ _ _ hpos hc => fairSchedule_of_rate hpos hc,
    fun hz n hpos => ?_⟩
  · rw [step, (State.next_listed h).1, (State.next_listed h).2]
  · rw [step, (State.next_unlisted h).1, (State.next_unlisted h).2]
  · obtain ⟨hsum, phase', hlt, heq⟩ := Clocks.count_events_rate n (Nat.add_pos_left hpos 60)
    refine ⟨hsum, by omega, ?_⟩
    rw [Nat.mul_succ]
    omega

end Sys2Proof.Machine

/-! ## The flag register (R14, R22, R137) -/

namespace Sys2Proof.Machine

/-! ### Registers after a completed and after a guarded instruction -/

section
variable {s u t : State} {r : Reg}

theorem complete_reg {sig : Signal} (h : complete sig u = .next t) : t.reg r = u.reg r := by
  cases h
  exact applySignal_reg ..

/-- An instruction that faults or completes keeps a register that its own writes keep. -/
theorem guarded_reg {c : Prop} [Decidable c] {cause : FaultCause} {info : Word} {sig : Signal}
    (h : (if c then takeFault cause info s else complete sig u) = .next t) (hu : u.reg r = s.reg r) :
    t.reg r = s.reg r := by
  split at h
  · cases h; rfl
  · exact (complete_reg h).trans hu

theorem complete_setReg_other {x : Reg} {b : Byte} {sig : Signal} (hr : r ≠ x)
    (h : complete sig (s.setReg x b) = .next t) : t.reg r = s.reg r :=
  (complete_reg h).trans (State.reg_setReg_other s b hr)

theorem reg_loadRegs_other (x : Reg) (hr : r ∉ groupRegs x) :
    ({ s with V := loadRegs s.mem s.I.toNat (groupRegs x) s.V } : State).reg r = s.reg r :=
  (loadRegs_getElem s.mem s.I.toNat (groupRegs x) s.V r).trans (if_neg hr)

/-! ### Which registers an instruction writes -/

/-- An instruction without a flag writes no register but its destinations, also where it faults. -/
theorem exec_reg_other {i : Instr} (hf : writesFlag i = false) (hr : r ∉ destinations i) (h : exec i s = .next t) :
    t.reg r = s.reg r := by
  cases i with
  | addReg | subReg | shr | subnReg | shl | drw => cases hf
  | ldImm | addImm | ldReg | orReg | andReg | xorReg | ldVxDT =>
    exact complete_setReg_other (List.ne_of_not_mem_cons hr) h
  | rnd => exact complete_setReg_other (s := s.consumeRandom) (List.ne_of_not_mem_cons hr) h
  | ldVxK x =>
    simp only [exec, execLdVxK] at h
    split at h
    · exact complete_setReg_other (List.ne_of_not_mem_cons hr) h
    · exact complete_reg h
  | ldVxMem x => exact guarded_reg h (reg_loadRegs_other x hr)
  | ret | call | ldBVx | ldMemVx | skp | sknp => exact guarded_reg h rfl
  | cls | jp | seImm | sneImm | seReg | sneReg | ldI | jpV0 | ldDTVx | ldSTVx | addIVx | ldFVx =>
    exact (complete_reg h).trans rfl

theorem complete_setReg_flag {f : Bool} {sig : Signal} (h : complete sig (u.setReg VF (flagByte f)) = .next t) :
    ∃ f', t.reg VF = flagByte f' :=
  ⟨f, (complete_reg h).trans (State.reg_setReg_same ..)⟩

/-- The flag is an instruction's last write, so it stands in `VF` whatever the destination is (R137). -/
theorem exec_flag {i : Instr} (hw : writesFlag i = true) (hnf : tableFault s i = none) (h : exec i s = .next t) :
    ∃ f, t.reg VF = flagByte f := by
  cases i with
  | addReg x | subReg x | shr x | subnReg x | shl x => exact complete_setReg_flag (u := s.setReg x _) h
  | drw x y n =>
    have hin : ¬s.dataOutOfRange n = true := fun hout => by
      rw [tableFault, if_pos ((State.dataOutOfRange_iff_last s n).mp hout)] at hnf
      cases hnf
    rw [exec, execDrw, if_neg hin] at h
    exact complete_setReg_flag h
  | _ => cases hw

theorem flagByte_zero_or_one (f : Bool) : flagByte f = 0x00#8 ∨ flagByte f = 0x01#8 := by
  cases f
  · exact .inl rfl
  · exact .inr rfl

end

/-- Settles O20, by the two lemmas on what an instruction leaves in a register. -/
theorem flagIsWrittenByTheSixAlone : Obligations.FlagIsWrittenByTheSixAlone := by
  intro i s t hnf h
  refine ⟨fun hw => ?_, fun hf hr => exec_reg_other hf hr h⟩
  obtain ⟨f, hflag⟩ := exec_flag hw hnf h
  exact hflag ▸ flagByte_zero_or_one f

end Sys2Proof.Machine

/-! ## The normal form of an instruction: a fault of the table, or its own writes and its signal (R90, R91) -/

namespace Sys2Proof.Machine

/-- The state with an instruction's own writes done and its control signal not yet applied (R90). -/
def ownWrites (s : State) : Instr → State
  | .cls => { s with vb := Vector.replicate 32 0#64 }
  | .ret => s.pop
  | .call _ => s.push (s.pc + 2)
  | .ldImm x kk => s.setReg x kk
  | .addImm x kk => s.setReg x (s.reg x + kk)
  | .ldReg x y => s.setReg x (s.reg y)
  | .orReg x y => s.setReg x (s.reg x ||| s.reg y)
  | .andReg x y => s.setReg x (s.reg x &&& s.reg y)
  | .xorReg x y => s.setReg x (s.reg x ^^^ s.reg y)
  | .addReg x y => s.setRegThenFlag x (s.reg x + s.reg y) (carry (s.reg x) (s.reg y))
  | .subReg x y => s.setRegThenFlag x (s.reg x - s.reg y) (noBorrow (s.reg x) (s.reg y))
  | .shr x _ => s.setRegThenFlag x (s.reg x >>> 1) (bitOutRight (s.reg x))
  | .subnReg x y => s.setRegThenFlag x (s.reg y - s.reg x) (noBorrow (s.reg y) (s.reg x))
  | .shl x _ => s.setRegThenFlag x (s.reg x <<< 1) (bitOutLeft (s.reg x))
  | .rnd x kk => s.consumeRandom.setReg x (s.randomByte &&& kk)
  | .ldI nnn => { s with I := nnn }
  | .addIVx x => { s with I := s.I + zext16 (s.reg x) }
  | .ldFVx x => { s with I := glyphAddress (s.reg x) }
  | .ldBVx x => { s with mem := Memory.storeBytes s.mem s.I.toNat (decimalDigits (s.reg x)) }
  | .ldMemVx x => { s with mem := Memory.storeBytes s.mem s.I.toNat (s.groupBytes x) }
  | .ldVxMem x => { s with V := loadRegs s.mem s.I.toNat (groupRegs x) s.V }
  | .drw x y n =>
    let sprite := Memory.loadBytes s.mem s.I.toNat n
    State.setReg { s with vb := drawSprite (originColumn (s.reg x)) (originRow (s.reg y)) sprite s.vb } VF
      (flagByte (collides (originColumn (s.reg x)) s.vb (originRow (s.reg y)) sprite))
  | .ldVxDT x => s.setReg x s.DT
  | .ldVxK x => { s with V := s.lowestKey.elim s.V fun k => s.V.set x (BitVec.ofNat 8 k) }
  | .ldDTVx x => { s with DT := s.reg x }
  | .ldSTVx x => { s with ST := s.reg x }
  | .jp _ | .jpV0 _ | .seImm _ _ | .sneImm _ _ | .seReg _ _ | .sneReg _ _ | .skp _ | .sknp _ => s

/-! ### The signal of a skip -/

section
variable {α : Type} [DecidableEq α] (a b : α)

theorem skipIf_beq : skipIf (a == b) = if a = b then .skip else .advance := by
  by_cases h : a = b <;> simp [skipIf, h]

theorem skipIf_bne : skipIf (a != b) = if a = b then .advance else .skip := by
  by_cases h : a = b <;> simp [skipIf, h]

theorem skipIf_not (c : Bool) : skipIf (!c) = if c then .advance else .skip := by
  cases c <;> rfl

end

/-! ### The two ways an instruction ends, with its own writes named, and the instruction step -/

section
variable {i : Instr} {s t : State}

/-- A guard of the table of faults does not hold where the table gives no fault. -/
theorem not_of_ite_eq_none {c : Prop} [Decidable c] {α : Type} {a : α} (h : (if c then some a else none) = none) : ¬c :=
  fun hc => nomatch ite_eq_right_iff.mp h hc

theorem dataInRange_of_not {n : Nat} (h : ¬(1 ≤ n ∧ 0xFFF < s.I.toNat + n - 1)) : ¬s.dataOutOfRange n = true :=
  mt (s.dataOutOfRange_iff_last n).mp h

/-- Where the table gives no fault an instruction ends with its own writes and its signal: `exec_cases` with the
writes named. -/
theorem exec_of_no_fault (h : tableFault s i = none) : exec i s = complete (tableSignal s i) (ownWrites s i) := by
  cases i with
  | ret => exact if_neg fun e => not_of_ite_eq_none h (s.sp_val_zero.mpr e)
  | call nnn => exact if_neg fun e => not_of_ite_eq_none h (s.sp_val_last.mpr e)
  | drw x y n => exact if_neg (dataInRange_of_not (not_of_ite_eq_none h))
  | ldBVx x => exact if_neg (dataInRange_of_not fun e => not_of_ite_eq_none h (by omega))
  | ldMemVx x | ldVxMem x =>
    exact if_neg (dataInRange_of_not fun e => not_of_ite_eq_none h (by rw [groupSize] at e; omega))
  | skp x => exact if_neg (not_of_ite_eq_none h)
  | sknp x =>
    rw [exec, execSknp, if_neg (not_of_ite_eq_none h), skipIf_not]
    rfl
  | seImm x kk => rw [exec, execSeImm, skipIf_beq]; rfl
  | seReg x y => rw [exec, execSeReg, skipIf_beq]; rfl
  | sneImm x kk => rw [exec, execSneImm, skipIf_bne]; rfl
  | sneReg x y => rw [exec, execSneReg, skipIf_bne]; rfl
  | jpV0 nnn =>
    rw [exec, execJpV0, tableSignal, BitVec.ofNat_add, BitVec.ofNat_toNat, BitVec.setWidth_eq, zext16_eq_ofNat]
    rfl
  | ldVxK x =>
    cases hk : s.lowestKey with
    | none =>
      simp only [exec, execLdVxK, hk, tableSignal, if_pos (State.lowestKey_none_iff.mp hk), ownWrites, Option.elim]
    | some k =>
      have hne : s.keys ≠ 0#16 := fun e => by rw [← State.lowestKey_none_iff, hk] at e; cases e
      simp only [exec, execLdVxK, hk, tableSignal, if_neg hne, ownWrites, Option.elim, State.setReg]
  | _ => rfl

@[simp] theorem ownWrites_pc (s : State) (i : Instr) : (ownWrites s i).pc = s.pc := by cases i <;> rfl
@[simp] theorem ownWrites_fault (s : State) (i : Instr) : (ownWrites s i).fault = s.fault := by cases i <;> rfl
@[simp] theorem ownWrites_keys (s : State) (i : Instr) : (ownWrites s i).keys = s.keys := by cases i <;> rfl

/-- The state an instruction that does not fault ends in: its own writes done, `redraw` as its signal says and `pc` at
its signal's target (R91, R94). -/
def completed (s : State) (i : Instr) : State :=
  { ownWrites s i with redraw := decide (tableSignal s i = .advanceAndRedraw), pc := (tableSignal s i).target s.pc }

/-- An instruction latches the fault of the table, or it completes. -/
theorem exec_eq (i : Instr) (s : State) :
    exec i s = .next ((tableFault s i).elim (completed s i) fun f => { s with fault := some f }) := by
  obtain ⟨f, hf, he⟩ | ⟨hf, -⟩ := exec_cases i s
  · rw [he, hf]
    rfl
  · rw [exec_of_no_fault hf, complete_next, ownWrites_pc, hf]
    rfl

/-- The same as an inversion: what a state an instruction answers can be. -/
theorem exec_ends (h : exec i s = .next t) :
    (∃ f, tableFault s i = some f ∧ t = { s with fault := some f }) ∨ (tableFault s i = none ∧ t = completed s i) := by
  rw [exec_eq] at h
  cases h
  cases hf : tableFault s i with
  | none => exact .inr ⟨rfl, rfl⟩
  | some f => exact .inl ⟨f, rfl, rfl⟩

/-- What a running machine's instruction step does (R90): the fetch faults, or the decoded instruction runs, or an
unknown word does. -/
theorem instrStep_cases (hrun : s.Running) (h : instrStep s = .next t) :
    (0xFFE < s.pc.toNat ∧ t = { s with fault := some ⟨.fetchOutOfBounds, s.pc⟩ }) ∨
    (s.pc.toNat ≤ 0xFFE ∧
      ((∃ i, decodeWord s.fetchedWord = .ok i ∧ exec i s = .next t) ∨
        (∃ r, decodeWord s.fetchedWord = .error r ∧ t = { s with redraw := false, pc := s.pc + 2 }))) := by
  rw [instrStep_eq, if_neg (by simp [hrun])] at h
  split at h
  case isTrue hpc =>
    refine .inr ⟨hpc, ?_⟩
    split at h
    case h_1 i hi => exact .inl ⟨i, hi, h⟩
    case h_2 r hr => cases h; exact .inr ⟨r, hr, rfl⟩
  case isFalse hpc =>
    cases h
    exact .inl ⟨Nat.lt_of_not_le hpc, rfl⟩

end

end Sys2Proof.Machine

/-! ## The invariant of the machine (R28, R38, R216, R217, R239) -/

namespace Sys2Proof.Machine

section
variable {i : Instr} {s t : State}

/-! ### What an instruction does to the parts of the invariant -/

/-- A fault of the table fits the state it is found in: its information word is taken from there (R211). -/
theorem explains_of_tableFault {f : LatchedFault} (hi : i.WellFormed) (h : tableFault s i = some f) : s.explains f := by
  cases i with
  | ret =>
    obtain ⟨hsp, ⟨⟩⟩ := Option.ite_none_right_eq_some.mp h
    exact ⟨rfl, s.sp_val_zero.mp hsp⟩
  | call nnn =>
    obtain ⟨hsp, ⟨⟩⟩ := Option.ite_none_right_eq_some.mp h
    exact ⟨rfl, s.sp_val_last.mp hsp⟩
  | drw x y n =>
    obtain ⟨hout, ⟨⟩⟩ := Option.ite_none_right_eq_some.mp h
    have hn : n ≤ 15 := of_decide_eq_true hi
    exact ⟨rfl, by omega⟩
  | ldBVx x =>
    obtain ⟨hout, ⟨⟩⟩ := Option.ite_none_right_eq_some.mp h
    exact ⟨rfl, by omega⟩
  | ldMemVx x | ldVxMem x =>
    obtain ⟨hout, ⟨⟩⟩ := Option.ite_none_right_eq_some.mp h
    exact ⟨rfl, by omega⟩
  | skp x | sknp x =>
    obtain ⟨hkey, ⟨⟩⟩ := Option.ite_none_right_eq_some.mp h
    have hbyte := (s.reg x).isLt
    show 15 < (BitVec.ofNat 16 (s.reg x).toNat).toNat ∧ (BitVec.ofNat 16 (s.reg x).toNat).toNat ≤ 0xFF
    rw [BitVec.toNat_ofNat]
    omega
  | _ => cases h

/-- An instruction that does not fault stores only to addresses that exist. -/
theorem wf_ownWrites_mem (hnf : tableFault s i = none) (h : Memory.wf s.mem = true) :
    Memory.wf (ownWrites s i).mem = true := by
  cases i with
  | ldBVx x =>
    have hin := not_of_ite_eq_none hnf
    exact Memory.wf_storeBytes _ h (by rw [decimalDigits]; simp only [List.length_cons, List.length_nil]; omega)
  | ldMemVx x =>
    have hin := not_of_ite_eq_none hnf
    exact Memory.wf_storeBytes _ h (by rw [State.groupBytes_length, groupSize]; omega)
  | _ => exact h

theorem toNat_add_of_fetchable {pc : Word} (n : Nat) (hpc : pc.toNat ≤ 0xFFE) (hn : n ≤ 4) :
    (pc + BitVec.ofNat 16 n).toNat = pc.toNat + n := by
  rw [BitVec.toNat_add, BitVec.toNat_ofNat]
  omega

theorem sp_ne_last_of_call {nnn : Word} (hnf : tableFault s (.call nnn) = none) : s.sp ≠ 15 :=
  fun e => not_of_ite_eq_none hnf (s.sp_val_last.mpr e)

theorem sp_ne_zero_of_ret (hnf : tableFault s .ret = none) : s.sp ≠ 0 :=
  fun e => not_of_ite_eq_none hnf (s.sp_val_zero.mpr e)

/-- A push never reaches the entry at 0: the pointer goes up first, and no call is made at 15 (R26, R113). -/
theorem ownWrites_base (hnf : tableFault s i = none) (h : s.stack[(0 : Fin 16)] = 0x0000#16) :
    (ownWrites s i).stack[(0 : Fin 16)] = 0x0000#16 := by
  cases i with
  | call nnn =>
    have hval := s.push_sp_val (s.pc + 2) (sp_ne_last_of_call hnf)
    have hne : (0 : Fin 16) ≠ s.sp + 1 := fun e => by
      rw [State.push_sp, ← e] at hval
      exact absurd hval (Nat.succ_ne_zero _).symm
    exact (s.push_stack (s.pc + 2) 0).trans ((if_neg hne).trans h)
  | _ => exact h

/-- A pop uncovers no entry, and a push adds the address after a call that was fetched (R26, R111, R113). -/
theorem ownWrites_live (hnf : tableFault s i = none) (hinv : Inv s) (hpc : s.pc.toNat ≤ 0xFFE) (k : Fin 16)
    (hk : 1 ≤ k.val) (hsp : k.val ≤ (ownWrites s i).sp.val) :
    2 ≤ ((ownWrites s i).stack[k]).toNat ∧ ((ownWrites s i).stack[k]).toNat ≤ 0x1000 := by
  cases i with
  | ret =>
    have hle : k.val ≤ s.sp.val - 1 := s.pop_sp_val (sp_ne_zero_of_ret hnf) ▸ hsp
    exact hinv.live k hk (by omega)
  | call nnn =>
    have hle : k.val ≤ s.sp.val + 1 := s.push_sp_val (s.pc + 2) (sp_ne_last_of_call hnf) ▸ hsp
    rw [ownWrites, State.push_stack]
    split
    case isTrue htop =>
      have hret : (s.pc + 2).toNat = s.pc.toNat + 2 := toNat_add_of_fetchable 2 hpc (by decide)
      omega
    case isFalse hlow =>
      have hne : k.val ≠ s.sp.val + 1 := fun e =>
        hlow (Fin.ext (e.trans (s.push_sp_val (s.pc + 2) (sp_ne_last_of_call hnf)).symm))
      exact hinv.live k hk (by omega)
  | _ => exact hinv.live k hk hsp

/-- The only targets an instruction gives are encoded addresses, such an address plus `V0`, and return addresses. -/
theorem jump_target_le {a : Word} (hi : i.WellFormed) (hnf : tableFault s i = none) (hinv : Inv s)
    (h : tableSignal s i = .jump a) : a.toNat ≤ 0x10FE := by
  cases i with
  | ret =>
    cases h
    have hsp : s.sp.val ≠ 0 := not_of_ite_eq_none hnf
    have hlive := hinv.live s.sp (by omega) (Nat.le_refl _)
    omega
  | jp nnn | call nnn =>
    cases h
    have hnnn : a.toNat ≤ 0xFFF := of_decide_eq_true hi
    omega
  | jpV0 nnn =>
    cases h
    have hnnn : nnn.toNat ≤ 0xFFF := of_decide_eq_true hi
    have hV0 := (s.reg 0).isLt
    rw [BitVec.toNat_ofNat]
    omega
  | seImm | sneImm | seReg | sneReg | skp | sknp | ldVxK =>
    rw [tableSignal] at h
    split at h <;> cases h
  | _ => cases h

theorem signal_target_le {sig : Signal} {pc : Word} (hpc : pc.toNat ≤ 0xFFE)
    (hjump : ∀ a, sig = .jump a → a.toNat ≤ 0x10FE) : (sig.target pc).toNat ≤ 0x10FE := by
  have h2 := toNat_add_of_fetchable 2 hpc (by decide)
  have h4 := toNat_add_of_fetchable 4 hpc (by decide)
  cases sig with
  | advance | advanceAndRedraw => exact h2.trans_le (by omega)
  | skip => exact h4.trans_le (by omega)
  | jump a => exact hjump a rfl
  | block => exact hpc.trans (by decide)

/-! ### The steps -/

/-- Latching a fault that fits the state keeps the invariant: nothing else changes (R216). -/
theorem Inv.latch {f : LatchedFault} (hinv : Inv s) (hf : s.explains f) : Inv { s with fault := some f } :=
  { hinv with fault := fun _ e => by cases e; exact hf }

/-- With nothing latched the program counter is bound by its range alone, and nothing binds `redraw`. -/
theorem Inv.complete {pc : Word} {redraw : Bool} (hinv : Inv s) (hrun : s.Running) (hpc : pc.toNat ≤ 0x10FE) :
    Inv { s with redraw := redraw, pc := pc } :=
  { hinv with pc := hpc, fault := fun _ hf => nomatch hrun.symm.trans hf }

theorem Inv.ownWrites (hinv : Inv s) (hrun : s.Running) (hpc : s.pc.toNat ≤ 0xFFE) (hnf : tableFault s i = none) :
    Inv (ownWrites s i) where
  memory := wf_ownWrites_mem hnf hinv.memory
  pc := (ownWrites_pc s i).symm ▸ hinv.pc
  base := ownWrites_base hnf hinv.base
  live := ownWrites_live hnf hinv hpc
  fault := fun _ hf => nomatch ((ownWrites_fault s i).trans hrun).symm.trans hf

theorem Inv.exec (hinv : Inv s) (hrun : s.Running) (hpc : s.pc.toNat ≤ 0xFFE) (hi : i.WellFormed)
    (h : exec i s = .next t) : Inv t := by
  obtain ⟨f, hf, rfl⟩ | ⟨hnf, rfl⟩ := exec_ends h
  · exact hinv.latch (explains_of_tableFault hi hf)
  · exact (hinv.ownWrites hrun hpc hnf).complete ((ownWrites_fault s i).trans hrun)
      (signal_target_le hpc fun _ => jump_target_le hi hnf hinv)

theorem Inv.instrStep (hinv : Inv s) (h : instrStep s = .next t) : Inv t := by
  by_cases hrun : s.Running
  · obtain ⟨hpc, rfl⟩ | ⟨hpc, ⟨i, hi, he⟩ | ⟨r, -, rfl⟩⟩ := instrStep_cases hrun h
    · exact hinv.latch ⟨rfl, hpc⟩
    · exact hinv.exec hrun hpc (decodeWord_wellFormed hi) he
    · exact hinv.complete hrun (signal_target_le (sig := .advance) hpc nofun)
  · rw [instrStep_eq, if_pos (Option.isSome_iff_ne_none.mpr hrun)] at h
    cases h
    exact hinv

theorem Inv.timerStep (hinv : Inv s) : Inv (timerStep s) := by
  unfold Machine.timerStep
  split
  · exact hinv
  · exact { hinv with }

/-- A ROM that is not refused ends at most at the last address of memory (R239). -/
theorem Inv.romLoad (bytes : List Byte) (hinv : Inv s) : Inv (romLoad bytes s) := by
  unfold Machine.romLoad romTooLarge
  split
  case isTrue => exact hinv
  case isFalse hfits =>
    have hlen : bytes.length ≤ 3584 := Nat.le_of_not_lt fun h => hfits (decide_eq_true h)
    have hend : Config.romBase + bytes.length ≤ 0x1000 := by rw [Config.romBase]; omega
    exact { hinv with memory := Memory.wf_storeBytes bytes hinv.memory hend }

/-- What reset leaves has the invariant, whatever the outside drives and has scheduled. -/
theorem inv_hostReset (s : State) : Inv (hostReset s) where
  memory := Memory.wf_reset
  pc := show (0x0200#16).toNat ≤ 0x10FE by decide
  base := rfl
  live := fun _ h1 h2 => absurd (Nat.le_trans h1 h2) (Nat.not_succ_le_zero 0)
  fault := nofun

theorem Inv.performEvent {e : Event} (hinv : Inv s) (h : performEvent e s = .next t) : Inv t := by
  cases e with
  | instrTick => exact hinv.instrStep h
  | timerTick => cases h; exact hinv.timerStep
  | driveKeys keys => cases h; exact { hinv with }
  | romLoad bytes => cases h; exact hinv.romLoad bytes
  | reset => cases h; exact inv_hostReset s

/-- The schedule is no part of the invariant. -/
theorem Inv.takeEvent (hinv : Inv s) : Inv s.takeEvent := by
  obtain ⟨p, c, hs⟩ := s.takeEvent_eq
  rw [hs]
  exact { hinv with }

end

/-- Settles O17: taking the event leaves the invariant, and so does every kind of event. -/
theorem everyStepKeepsTheInvariant : Obligations.EveryStepKeepsTheInvariant :=
  fun _ _ hinv h => hinv.takeEvent.performEvent h

/-- Settles O18: the reset state is what a reset event leaves in it. -/
theorem resetMeetsTheInvariant : Obligations.ResetMeetsTheInvariant := inv_hostReset State.reset

end Sys2Proof.Machine

/-! ## What an instruction writes (R25 to R29, R32, R50, R144) -/

namespace Sys2Proof.Machine

/-! ### The writers of each element

Every other instruction's own writes leave the element by definition. -/

section
variable {i : Instr} {s t : State}

theorem ownWrites_I_ne (h : (ownWrites s i).I ≠ s.I) :
    (∃ nnn, i = .ldI nnn) ∨ (∃ x, i = .addIVx x) ∨ (∃ x, i = .ldFVx x) := by
  cases i with
  | ldI nnn => exact .inl ⟨nnn, rfl⟩
  | addIVx x => exact .inr (.inl ⟨x, rfl⟩)
  | ldFVx x => exact .inr (.inr ⟨x, rfl⟩)
  | _ => exact absurd rfl h

theorem ownWrites_DT_ne (h : (ownWrites s i).DT ≠ s.DT) : ∃ x, i = .ldDTVx x := by
  cases i with
  | ldDTVx x => exact ⟨x, rfl⟩
  | _ => exact absurd rfl h

theorem ownWrites_ST_ne (h : (ownWrites s i).ST ≠ s.ST) : ∃ x, i = .ldSTVx x := by
  cases i with
  | ldSTVx x => exact ⟨x, rfl⟩
  | _ => exact absurd rfl h

theorem ownWrites_mem_ne (h : (ownWrites s i).mem ≠ s.mem) : (∃ x, i = .ldBVx x) ∨ (∃ x, i = .ldMemVx x) := by
  cases i with
  | ldBVx x => exact .inl ⟨x, rfl⟩
  | ldMemVx x => exact .inr ⟨x, rfl⟩
  | _ => exact absurd rfl h

theorem ownWrites_vb_ne (h : (ownWrites s i).vb ≠ s.vb) : i = .cls ∨ ∃ x y n, i = .drw x y n := by
  cases i with
  | cls => exact .inl rfl
  | drw x y n => exact .inr ⟨x, y, n, rfl⟩
  | _ => exact absurd rfl h

theorem ownWrites_sp_ne (h : (ownWrites s i).sp ≠ s.sp) : i = .ret ∨ ∃ nnn, i = .call nnn := by
  cases i with
  | ret => exact .inl rfl
  | call nnn => exact .inr ⟨nnn, rfl⟩
  | _ => exact absurd rfl h

theorem ownWrites_stack_ne (h : (ownWrites s i).stack ≠ s.stack) : ∃ nnn, i = .call nnn := by
  cases i with
  | call nnn => exact ⟨nnn, rfl⟩
  | _ => exact absurd rfl h

theorem ownWrites_random_ne (h : (ownWrites s i).rnd ≠ s.rnd ∨ (ownWrites s i).drawn ≠ s.drawn) :
    ∃ x kk, i = .rnd x kk := by
  cases i with
  | rnd x kk => exact ⟨x, kk, rfl⟩
  | _ => exact absurd h (not_or_intro (not_not_intro rfl) (not_not_intro rfl))

theorem exec_keys (h : exec i s = .next t) : t.keys = s.keys := by
  obtain ⟨f, -, rfl⟩ | ⟨-, rfl⟩ := exec_ends h
  · rfl
  · exact ownWrites_keys s i

end

/-- Settles O21: a fault changes none of these elements, and completing adds only `pc` and `redraw` to an instruction's
own writes. -/
theorem onlyTheNamedInstructionsWrite : Obligations.OnlyTheNamedInstructionsWrite := by
  intro i s t h
  obtain ⟨hpending, hclocks⟩ := exec_schedule h
  have hkeys := exec_keys h
  obtain ⟨f, -, rfl⟩ | ⟨-, rfl⟩ := exec_ends h
  · simp
  · exact ⟨ownWrites_I_ne, ownWrites_DT_ne, ownWrites_ST_ne, ownWrites_mem_ne, ownWrites_vb_ne, ownWrites_sp_ne,
      ownWrites_stack_ne, ownWrites_random_ne, hkeys, hpending, hclocks⟩

end Sys2Proof.Machine

/-! ## What an instruction does not read (R29, R30, R32)

Two runs side by side: a relation between states that differ in an element only, kept by everything a step does. -/

namespace Sys2Proof.Machine

/-- The related states fetch and halt alike, and stay related when both latch a fault or both end with one signal. -/
structure StepRelation (R : State → State → Prop) : Prop where
  pc : ∀ {s s'}, R s s' → s'.pc = s.pc
  mem : ∀ {s s'}, R s s' → s'.mem = s.mem
  fault : ∀ {s s'}, R s s' → s'.fault = s.fault
  latch : ∀ {s s'} (f : LatchedFault), R s s' → R { s with fault := some f } { s' with fault := some f }
  finish : ∀ {s s'} (redraw : Bool) (pc : Word), R s s' →
    R { s with redraw := redraw, pc := pc } { s' with redraw := redraw, pc := pc }

/-- The instruction cannot tell related states apart: it faults alike, gives the same signal and writes related states. -/
def Blind (R : State → State → Prop) (i : Instr) : Prop :=
  ∀ {s s'}, R s s' →
    tableFault s' i = tableFault s i ∧ tableSignal s' i = tableSignal s i ∧ R (ownWrites s i) (ownWrites s' i)

section
variable {R : State → State → Prop} {i : Instr} {s s' t : State}

theorem StepRelation.exec (hR : StepRelation R) (hi : Blind R i) (hs : R s s') (h : exec i s = .next t) :
    ∃ t', exec i s' = .next t' ∧ R t t' := by
  obtain ⟨hfault, hsignal, hwrites⟩ := hi hs
  refine ⟨_, exec_eq i s', ?_⟩
  obtain ⟨f, hf, rfl⟩ | ⟨hnf, rfl⟩ := exec_ends h
  · rw [hfault, hf]
    exact hR.latch f hs
  · rw [hfault, hnf, completed, completed, hsignal, hR.pc hs]
    exact hR.finish _ _ hwrites

theorem StepRelation.fetchedWord (hR : StepRelation R) (hs : R s s') : s'.fetchedWord = s.fetchedWord := by
  rw [State.fetchedWord, State.fetchedWord, hR.pc hs, hR.mem hs]

theorem StepRelation.instrStep (hR : StepRelation R) (hall : ∀ i, Blind R i) (hs : R s s')
    (h : instrStep s = .next t) : ∃ t', instrStep s' = .next t' ∧ R t t' := by
  rw [instrStep_eq] at h ⊢
  rw [hR.fault hs, hR.fetchedWord hs, hR.pc hs]
  split at h
  case isTrue hhalted => cases h; exact ⟨s', if_pos hhalted, hs⟩
  case isFalse hrun =>
    rw [if_neg hrun]
    split at h
    case isTrue hpc =>
      rw [if_pos hpc]
      split at h
      case h_1 i _ => exact hR.exec (hall i) hs h
      case h_2 _ =>
        cases h
        exact ⟨_, rfl, hR.pc hs ▸ hR.finish false (s.pc + 2) hs⟩
    case isFalse hpc =>
      cases h
      exact ⟨_, if_neg hpc, hR.latch _ hs⟩

end

/-! ### The sound timer -/

/-- `s'` is `s` but for `ST`. -/
def DiffersInSound (s s' : State) : Prop := ∃ v, s' = { s with ST := v }

theorem stepRelation_sound : StepRelation DiffersInSound where
  pc := fun ⟨_, h⟩ => h ▸ rfl
  mem := fun ⟨_, h⟩ => h ▸ rfl
  fault := fun ⟨_, h⟩ => h ▸ rfl
  latch := fun _ ⟨v, h⟩ => ⟨v, h ▸ rfl⟩
  finish := fun _ _ ⟨v, h⟩ => ⟨v, h ▸ rfl⟩

/-- `Fx18` alone touches `ST`, and it writes it from a register (R196). -/
theorem blind_sound (i : Instr) : Blind DiffersInSound i := by
  rintro s s' ⟨v, rfl⟩
  cases i with
  | ldSTVx x => exact ⟨rfl, rfl, s.reg x, rfl⟩
  | _ => exact ⟨rfl, rfl, v, rfl⟩

/-- Settles O22: no instruction tells states apart that differ in `ST`. -/
theorem noInstructionReadsTheSoundTimer : Obligations.NoInstructionReadsTheSoundTimer := by
  intro s t v h
  obtain ⟨_, hu, _, rfl⟩ := stepRelation_sound.instrStep blind_sound ⟨v, rfl⟩ h
  exact ⟨_, hu, rfl⟩

/-! ### The key level -/

/-- `s'` is `s` with the key level `k`. -/
def WithKeys (k : BitVec 16) (s s' : State) : Prop := s' = { s with keys := k }

theorem stepRelation_keys (k : BitVec 16) : StepRelation (WithKeys k) where
  pc := fun h => h ▸ rfl
  mem := fun h => h ▸ rfl
  fault := fun h => h ▸ rfl
  latch := fun _ h => by cases h; rfl
  finish := fun _ _ h => by cases h; rfl

/-- Settles O23: all but the three key instructions are blind to the level. -/
theorem keysAreReadByTheKeyInstructionsAlone : Obligations.KeysAreReadByTheKeyInstructionsAlone := by
  intro i s t k h
  refine ⟨exec_keys h, ?_⟩
  have hblind : (∃ x, i = .skp x) ∨ (∃ x, i = .sknp x) ∨ (∃ x, i = .ldVxK x) ∨ Blind (WithKeys k) i := by
    cases i with
    | skp x => exact .inl ⟨x, rfl⟩
    | sknp x => exact .inr (.inl ⟨x, rfl⟩)
    | ldVxK x => exact .inr (.inr (.inl ⟨x, rfl⟩))
    | _ => exact .inr (.inr (.inr fun hs => hs ▸ ⟨rfl, rfl, rfl⟩))
  refine hblind.imp_right (Or.imp_right (Or.imp_right fun hi => ?_))
  obtain ⟨u, hu, rfl⟩ := (stepRelation_keys k).exec hi rfl h
  exact hu

/-! ### The redraw flag -/

/-- `s'` is `s` but for `redraw`. -/
def DiffersInRedraw (s s' : State) : Prop := ∃ b, s' = { s with redraw := b }

theorem stepRelation_redraw : StepRelation DiffersInRedraw where
  pc := fun ⟨_, h⟩ => h ▸ rfl
  mem := fun ⟨_, h⟩ => h ▸ rfl
  fault := fun ⟨_, h⟩ => h ▸ rfl
  latch := fun _ ⟨b, h⟩ => ⟨b, h ▸ rfl⟩
  finish := fun redraw _ ⟨_, h⟩ => ⟨redraw, h ▸ rfl⟩

theorem blind_redraw (i : Instr) : Blind DiffersInRedraw i := by
  rintro s s' ⟨b, rfl⟩
  cases i <;> exact ⟨rfl, rfl, b, rfl⟩

section
variable {w : Word} {i : Instr} {s t : State}

theorem fieldClass_of_decodeWord_drw {x y : Reg} {n : Nat} (h : decodeWord w = .ok (.drw x y n)) :
    (fieldClass w).toNat = 0xD := by
  unfold decodeWord decodeClass0 decodeClass5 decodeClass8 decodeClass9 decodeClassE decodeClassF at h
  split at h
  case h_14 hclass => exact hclass
  case h_1 =>
    split at h
    · cases h
    · split at h <;> cases h
  case h_6 | h_9 | h_10 | h_15 | h_16 => split at h <;> cases h
  all_goals cases h

/-- The words of R181 are those of class D. -/
theorem decodeWord_drw_iff : (∃ x y n, decodeWord w = .ok (.drw x y n)) ↔ w &&& 0xF000#16 = 0xD000#16 := by
  have hmask : w &&& 0xF000#16 = 0xD000#16 ↔ (fieldClass w).toNat = 0xD := by
    rw [← BitVec.toNat_inj, and_F000_toNat, fieldClass_toNat]
    show w.toNat / 4096 * 4096 = 0xD000 ↔ w.toNat / 4096 = 0xD
    omega
  rw [hmask]
  refine ⟨fun ⟨_, _, _, h⟩ => fieldClass_of_decodeWord_drw h, fun h => ?_⟩
  rw [decodeWord, h]
  exact ⟨_, _, _, rfl⟩

theorem tableSignal_redraw_iff : tableSignal s i = .advanceAndRedraw ↔ ∃ x y n, i = .drw x y n := by
  constructor
  · intro h
    cases i with
    | drw x y n => exact ⟨x, y, n, rfl⟩
    | seImm | sneImm | seReg | sneReg | skp | sknp | ldVxK =>
      rw [tableSignal] at h
      split at h <;> cases h
    | _ => cases h
  · rintro ⟨x, y, n, rfl⟩
    rfl

theorem instrStep_redraw_iff (hrun : s.Running) (h : instrStep s = .next t) (hnf : t.fault = none) :
    t.redraw = true ↔ s.fetchedWord &&& 0xF000#16 = 0xD000#16 := by
  rw [← decodeWord_drw_iff]
  obtain ⟨-, rfl⟩ | ⟨-, ⟨i, hi, he⟩ | ⟨r, hr, rfl⟩⟩ := instrStep_cases hrun h
  · cases hnf
  · obtain ⟨f, -, rfl⟩ | ⟨-, rfl⟩ := exec_ends he
    · cases hnf
    · simp only [hi, Except.ok.injEq, completed, decide_eq_true_eq, tableSignal_redraw_iff]
  · simp only [hr, reduceCtorEq, exists_false, Bool.false_eq_true]

end

/-- Settles O15: the signal of a `Dxyn` is the only one that sets the flag, no other event writes it, and no instruction
tells states apart that differ in it. -/
theorem redrawExactlyAfterADraw : Obligations.RedrawExactlyAfterADraw := by
  refine ⟨fun s t hrun h hnf => instrStep_redraw_iff hrun h hnf, fun e s t hi hr h => ?_, fun s t b h => ?_⟩
  · cases e with
    | instrTick => exact absurd rfl hi
    | reset => exact absurd rfl hr
    | timerTick => cases h; unfold timerStep; split <;> rfl
    | driveKeys keys => cases h; rfl
    | romLoad bytes => cases h; unfold romLoad; split <;> rfl
  · obtain ⟨_, hu, _, rfl⟩ := stepRelation_redraw.instrStep blind_redraw ⟨b, rfl⟩ h
    exact ⟨_, hu, rfl⟩

end Sys2Proof.Machine

/-! ## Reset, the ports and the stack (R25, R26, R37, R111, R113, R232, R250) -/

namespace Sys2Proof.Machine

theorem pixel_dark (px py : Nat) : Frame.pixel (Vector.replicate 32 0#64) px py = false := by
  simp [Frame.pixel]

theorem holdsResetValues_hostReset (s : State) : HoldsResetValues (hostReset s) where
  regs := fun r => Vector.getElem_replicate r.isLt
  font := fun _ ha => if_pos ha
  memory := fun _ ha _ => if_neg (Nat.not_lt.mpr ha)
  display := pixel_dark
  entries := fun k => Vector.getElem_replicate k.isLt
  pointer := rfl
  index := rfl
  pc := rfl
  delay := rfl
  sound := rfl
  redraw := rfl
  fault := rfl
  beep := rfl

/-- Settles O26: `State.reset` is what a reset event leaves in it. -/
theorem resetRebuildsTheWholeState : Obligations.ResetRebuildsTheWholeState :=
  ⟨holdsResetValues_hostReset State.reset, fun s => ⟨hostReset s, rfl, holdsResetValues_hostReset s⟩⟩

/-- Settles O29: column and row are the remainder and the quotient of the index by the width. -/
theorem videoBufferViewIsRowMajor : Obligations.VideoBufferViewIsRowMajor := by
  intro s px py hx _
  have hcolumn : (py * 64 + px) % 64 = px := by omega
  have hrow : (py * 64 + px) / 64 = py := by omega
  rw [State.vbPort, hcolumn, hrow]

theorem State.pop_push_sp (s : State) (w : Word) : (s.push w).pop.sp = s.sp := by simp

theorem State.top_push (s : State) (w : Word) : (s.push w).top = w := (s.push_stack w (s.sp + 1)).trans (if_pos rfl)

/-- Settles O33: the pop comes back to the pointer before the push, and the entry on top is the one pushed. -/
theorem returnComesBackAfterTheCall : Obligations.ReturnComesBackAfterTheCall := by
  intro nnn s hs
  have hcall : exec (.call nnn) s = complete (.jump nnn) (s.push (s.pc + 2)) := if_neg hs
  have hsp : (s.push (s.pc + 2)).sp ≠ 0 := fun e => by
    have := s.push_sp_val (s.pc + 2) hs
    rw [e] at this
    cases this
  refine ⟨_, _, hcall, if_neg hsp, s.top_push (s.pc + 2), s.pop_push_sp (s.pc + 2)⟩

end Sys2Proof.Machine

/-! ## The step that runs an instruction (R51, R90) -/

namespace Sys2Proof.Machine

/-- The instruction step of a running machine whose two bytes at `pc` exist and decode (R90). -/
theorem instrStep_of_fetch {s : State} {i : Instr} {rest : List Byte} (hrun : s.Running) (hpc : s.pc.toNat ≤ 0xFFE)
    (hfetch : s.fetch = .ok (i, rest)) : instrStep s = exec i s := by
  have hlive : ¬s.halted = true := by simp [State.halted, hrun]
  have hcan : s.canFetch = true := decide_eq_true hpc
  rw [instrStep, if_neg hlive, if_pos hcan, hfetch]

/-- Settles O8: taking the tick from the schedule changes neither the fault, nor `pc`, nor the bytes there, so the state
it leaves fetches what `s` does. -/
theorem stepRunsTheDecodedInstruction : Obligations.StepRunsTheDecodedInstruction := by
  intro s i rest hrun hpc hdec
  refine ⟨fun c hp hc => ?_, fun later hp => ?_⟩
  · obtain ⟨hnext, htake⟩ := State.next_unlisted hp
    rw [step, hnext, htake, hc]
    exact instrStep_of_fetch hrun hpc hdec
  · obtain ⟨hnext, htake⟩ := State.next_listed hp
    rw [step, hnext, htake]
    exact instrStep_of_fetch hrun hpc hdec

end Sys2Proof.Machine

/-! ## The encoder and the decoder (R81 to R87) -/

namespace Sys2Proof.Laws.DecodeEncode

/-- The lemmas of the single instructions together. -/
theorem every : ∀ i : Instr, Statement i
  | .cls => cls
  | .ret => ret
  | .jp nnn => jp nnn
  | .call nnn => call nnn
  | .seImm x kk => seImm x kk
  | .sneImm x kk => sneImm x kk
  | .seReg x y => seReg x y
  | .ldImm x kk => ldImm x kk
  | .addImm x kk => addImm x kk
  | .ldReg x y => ldReg x y
  | .orReg x y => orReg x y
  | .andReg x y => andReg x y
  | .xorReg x y => xorReg x y
  | .addReg x y => addReg x y
  | .subReg x y => subReg x y
  | .shr x y => shr x y
  | .subnReg x y => subnReg x y
  | .shl x y => shl x y
  | .sneReg x y => sneReg x y
  | .ldI nnn => ldI nnn
  | .jpV0 nnn => jpV0 nnn
  | .rnd x kk => rnd x kk
  | .drw x y n => drw x y n
  | .skp x => skp x
  | .sknp x => sknp x
  | .ldVxDT x => ldVxDT x
  | .ldVxK x => ldVxK x
  | .ldDTVx x => ldDTVx x
  | .ldSTVx x => ldSTVx x
  | .addIVx x => addIVx x
  | .ldFVx x => ldFVx x
  | .ldBVx x => ldBVx x
  | .ldMemVx x => ldMemVx x
  | .ldVxMem x => ldVxMem x

end Sys2Proof.Laws.DecodeEncode

namespace Sys2Proof

theorem decodeWord_encode {i : Instr} (hi : i.WellFormed) : decodeWord (encode i) = .ok i :=
  Laws.DecodeEncode.every i hi

/-- Settles O4: the decoder reads the word of the two bytes, and that word decodes to the instruction. -/
theorem decodeOfEncodeIsTheInstruction : Obligations.DecodeOfEncodeIsTheInstruction := by
  intro i rest hi
  rw [decode_encodeBytes, decodeWord_encode hi]

/-! ### What the decoder can answer -/

section
variable {w : Word} {c n : BitVec 4} {kk : Byte}

theorem encodeNNN_of_class (hc : (fieldClass w).toNat = c.toNat) : encodeNNN c (fieldNNN w) = w :=
  BitVec.eq_of_toNat_eq hc ▸ encodeNNN_fields w

theorem encodeXKK_of_class (hc : (fieldClass w).toNat = c.toNat) : encodeXKK c (fieldX w) (fieldKK w) = w :=
  BitVec.eq_of_toNat_eq hc ▸ encodeXKK_fields w

theorem encodeXKK_of_fields (hc : (fieldClass w).toNat = c.toNat) (hkk : (fieldKK w).toNat = kk.toNat) :
    encodeXKK c (fieldX w) kk = w :=
  BitVec.eq_of_toNat_eq hkk ▸ encodeXKK_of_class hc

theorem encodeXYN_of_fields (hc : (fieldClass w).toNat = c.toNat) (hn : (fieldN w).toNat = n.toNat) :
    encodeXYN c (fieldX w) (fieldY w) n = w :=
  BitVec.eq_of_toNat_eq hc ▸ BitVec.eq_of_toNat_eq hn ▸ encodeXYN_fields w

end

/-- A right answer for a word: an instruction whose word it is, or the unknown opcode. -/
def AnswersFor (w : Word) : Except DecodeReject Instr → Prop
  | .ok i => encode i = w
  | .error r => r = .unknownOpcode w

section
variable {w : Word}

theorem decodeClass0_answers : AnswersFor w (decodeClass0 w) := by
  unfold decodeClass0
  split
  case isTrue hw => exact hw.symm
  case isFalse =>
    split
    case isTrue hw => exact hw.symm
    case isFalse => rfl

theorem decodeClass5_answers (hc : (fieldClass w).toNat = 0x5) : AnswersFor w (decodeClass5 w) := by
  unfold decodeClass5
  split
  case isTrue hn => exact encodeXYN_of_fields hc (congrArg _ hn)
  case isFalse => rfl

theorem decodeClass8_answers (hc : (fieldClass w).toNat = 0x8) : AnswersFor w (decodeClass8 w) := by
  unfold decodeClass8
  split
  case h_10 => rfl
  all_goals exact encodeXYN_of_fields hc ‹(fieldN w).toNat = _›

theorem decodeClass9_answers (hc : (fieldClass w).toNat = 0x9) : AnswersFor w (decodeClass9 w) := by
  unfold decodeClass9
  split
  case isTrue hn => exact encodeXYN_of_fields hc (congrArg _ hn)
  case isFalse => rfl

theorem decodeClassE_answers (hc : (fieldClass w).toNat = 0xE) : AnswersFor w (decodeClassE w) := by
  unfold decodeClassE
  split
  case h_3 => rfl
  all_goals exact encodeXKK_of_fields hc ‹(fieldKK w).toNat = _›

theorem decodeClassF_answers (hc : (fieldClass w).toNat = 0xF) : AnswersFor w (decodeClassF w) := by
  unfold decodeClassF
  split
  case h_10 => rfl
  all_goals exact encodeXKK_of_fields hc ‹(fieldKK w).toNat = _›

theorem decodeWord_answers (w : Word) : AnswersFor w (decodeWord w) := by
  unfold decodeWord
  split
  case h_1 => exact decodeClass0_answers
  case h_6 hc => exact decodeClass5_answers hc
  case h_9 hc => exact decodeClass8_answers hc
  case h_10 hc => exact decodeClass9_answers hc
  case h_15 hc => exact decodeClassE_answers hc
  case h_16 hc => exact decodeClassF_answers hc
  case h_2 hc | h_3 hc | h_11 hc | h_12 hc => exact encodeNNN_of_class hc
  case h_4 hc | h_5 hc | h_7 hc | h_8 hc | h_13 hc => exact encodeXKK_of_class hc
  case h_14 hc => exact encodeXYN_of_fields hc (Nat.mod_eq_of_lt (fieldN w).isLt).symm
  case h_17 => rfl

theorem encode_of_decodeWord {i : Instr} (h : decodeWord w = .ok i) : encode i = w := by
  have hw := decodeWord_answers w
  rwa [h] at hw

theorem eq_unknownOpcode_of_decodeWord {r : DecodeReject} (h : decodeWord w = .error r) : r = .unknownOpcode w := by
  have hw := decodeWord_answers w
  rwa [h] at hw

end

/-- Settles O5: the decoder gives well-formed instructions only, and only those whose word it reads. -/
theorem encodeOfDecodeIsTheWord : Obligations.EncodeOfDecodeIsTheWord :=
  fun _ _ h => ⟨decodeWord_wellFormed h, encode_of_decodeWord h⟩

end Sys2Proof

/-! ## The opcode map (R84 to R87) -/

namespace Sys2Proof.Machine

/-! ### A mask selects fields -/

section
variable {c n : BitVec 4} {kk : Byte} {w : Word}

theorem and_F000_eq_iff : w &&& 0xF000#16 = encodeNNN c 0#16 ↔ fieldClass w = c := by
  rw [← BitVec.toNat_inj, ← BitVec.toNat_inj, and_F000_toNat, encodeNNN_toNat, fieldClass_toNat, BitVec.toNat_ofNat]
  omega

theorem and_F00F_eq_iff : w &&& 0xF00F#16 = encodeXYN c 0 0 n ↔ fieldClass w = c ∧ fieldN w = n := by
  rw [← BitVec.toNat_inj, ← BitVec.toNat_inj, ← BitVec.toNat_inj, and_F00F_toNat, encodeXYN_toNat, fieldClass_toNat,
    fieldN_toNat, Fin.val_zero]
  omega

theorem and_F0FF_eq_iff : w &&& 0xF0FF#16 = encodeXKK c 0 kk ↔ fieldClass w = c ∧ fieldKK w = kk := by
  rw [← BitVec.toNat_inj, ← BitVec.toNat_inj, ← BitVec.toNat_inj, and_F0FF_toNat, encodeXKK_toNat, fieldClass_toNat,
    fieldKK_toNat, Fin.val_zero]
  omega

end

/-! ### The words that are built from their own fields -/

section
variable (c n : BitVec 4) (kk : Byte) (w : Word)

theorem encodeNNN_eq_iff : encodeNNN c (wordNNN w) = w ↔ w &&& 0xF000#16 = encodeNNN c 0#16 := by
  rw [and_F000_eq_iff, ← fieldNNN_eq_wordNNN]
  exact ⟨fun h => by rw [← h, fieldClass_encodeNNN], fun h => h ▸ encodeNNN_fields w⟩

theorem encodeXKK_eq_iff : encodeXKK c (wordX w) (wordKK w) = w ↔ w &&& 0xF000#16 = encodeNNN c 0#16 := by
  rw [and_F000_eq_iff, ← fieldX_eq_wordX, ← fieldKK_eq_wordKK]
  exact ⟨fun h => by rw [← h, fieldClass_encodeXKK], fun h => h ▸ encodeXKK_fields w⟩

theorem encodeXYN_eq_iff :
    encodeXYN c (wordX w) (wordY w) (BitVec.ofNat 4 (wordN w)) = w ↔ w &&& 0xF000#16 = encodeNNN c 0#16 := by
  rw [and_F000_eq_iff, ← fieldX_eq_wordX, ← fieldY_eq_wordY, ← fieldN_eq_wordN, BitVec.ofNat_toNat, BitVec.setWidth_eq]
  exact ⟨fun h => by rw [← h, fieldClass_encodeXYN], fun h => h ▸ encodeXYN_fields w⟩

theorem encodeXY_eq_iff : encodeXYN c (wordX w) (wordY w) n = w ↔ w &&& 0xF00F#16 = encodeXYN c 0 0 n := by
  rw [and_F00F_eq_iff, ← fieldX_eq_wordX, ← fieldY_eq_wordY]
  constructor
  · intro h
    rw [← h, fieldClass_encodeXYN, fieldN_encodeXYN]
    exact ⟨rfl, rfl⟩
  · rintro ⟨rfl, rfl⟩
    exact encodeXYN_fields w

theorem encodeX_eq_iff : encodeXKK c (wordX w) kk = w ↔ w &&& 0xF0FF#16 = encodeXKK c 0 kk := by
  rw [and_F0FF_eq_iff, ← fieldX_eq_wordX]
  constructor
  · intro h
    rw [← h, fieldClass_encodeXKK, fieldKK_encodeXKK]
    exact ⟨rfl, rfl⟩
  · rintro ⟨rfl, rfl⟩
    exact encodeXKK_fields w

theorem eq_iff_and_FFFF (v : Word) : v = w ↔ w &&& 0xFFFF#16 = v := by
  rw [and_FFFF, eq_comm]

end

/-! ### The rows -/

/-- A row holds when the words that encode its instruction are those it selects: decoding inverts encoding. -/
theorem encodedAs_of_encode {mask value : Word} {build : Word → Instr} (hwf : ∀ w, (build w).WellFormed)
    (henc : ∀ w, encode (build w) = w ↔ w &&& mask = value) : EncodedAs mask value build := by
  intro w
  rw [← henc]
  exact ⟨encode_of_decodeWord, fun h => (congrArg decodeWord h).symm.trans (decodeWord_encode (hwf w))⟩

theorem wordNNN_le (w : Word) : decide ((wordNNN w).toNat ≤ 0xFFF) = true := by
  rw [← fieldNNN_eq_wordNNN, fieldNNN_toNat]
  exact decide_eq_true (by omega)

theorem wordN_le (w : Word) : decide (wordN w ≤ 15) = true :=
  decide_eq_true (Nat.le_of_lt_succ (Nat.mod_lt _ (by decide)))

/-- Every row of the map, each by the format of its instruction. -/
theorem opcodeMap_encodedAs : ∀ row ∈ opcodeMap, EncodedAs row.mask row.value row.build := by
  simp only [opcodeMap, List.cons_append, List.nil_append, List.forall_mem_cons]
  exact ⟨encodedAs_of_encode (fun _ => rfl) (fun w => eq_iff_and_FFFF w _),
    encodedAs_of_encode (fun _ => rfl) (fun w => eq_iff_and_FFFF w _),
    encodedAs_of_encode wordNNN_le (encodeNNN_eq_iff 0x1),
    encodedAs_of_encode wordNNN_le (encodeNNN_eq_iff 0x2),
    encodedAs_of_encode (fun _ => rfl) (encodeXKK_eq_iff 0x3),
    encodedAs_of_encode (fun _ => rfl) (encodeXKK_eq_iff 0x4),
    encodedAs_of_encode (fun _ => rfl) (encodeXY_eq_iff 0x5 0x0),
    encodedAs_of_encode (fun _ => rfl) (encodeXKK_eq_iff 0x6),
    encodedAs_of_encode (fun _ => rfl) (encodeXKK_eq_iff 0x7),
    encodedAs_of_encode (fun _ => rfl) (encodeXY_eq_iff 0x8 0x0),
    encodedAs_of_encode (fun _ => rfl) (encodeXY_eq_iff 0x8 0x1),
    encodedAs_of_encode (fun _ => rfl) (encodeXY_eq_iff 0x8 0x2),
    encodedAs_of_encode (fun _ => rfl) (encodeXY_eq_iff 0x8 0x3),
    encodedAs_of_encode (fun _ => rfl) (encodeXY_eq_iff 0x8 0x4),
    encodedAs_of_encode (fun _ => rfl) (encodeXY_eq_iff 0x8 0x5),
    encodedAs_of_encode (fun _ => rfl) (encodeXY_eq_iff 0x8 0x6),
    encodedAs_of_encode (fun _ => rfl) (encodeXY_eq_iff 0x8 0x7),
    encodedAs_of_encode (fun _ => rfl) (encodeXY_eq_iff 0x8 0xE),
    encodedAs_of_encode (fun _ => rfl) (encodeXY_eq_iff 0x9 0x0),
    encodedAs_of_encode wordNNN_le (encodeNNN_eq_iff 0xA),
    encodedAs_of_encode wordNNN_le (encodeNNN_eq_iff 0xB),
    encodedAs_of_encode (fun _ => rfl) (encodeXKK_eq_iff 0xC),
    encodedAs_of_encode (fun w => wordN_le w) (encodeXYN_eq_iff 0xD),
    encodedAs_of_encode (fun _ => rfl) (encodeX_eq_iff 0xE 0x9E),
    encodedAs_of_encode (fun _ => rfl) (encodeX_eq_iff 0xE 0xA1),
    encodedAs_of_encode (fun _ => rfl) (encodeX_eq_iff 0xF 0x07),
    encodedAs_of_encode (fun _ => rfl) (encodeX_eq_iff 0xF 0x0A),
    encodedAs_of_encode (fun _ => rfl) (encodeX_eq_iff 0xF 0x15),
    encodedAs_of_encode (fun _ => rfl) (encodeX_eq_iff 0xF 0x18),
    encodedAs_of_encode (fun _ => rfl) (encodeX_eq_iff 0xF 0x1E),
    encodedAs_of_encode (fun _ => rfl) (encodeX_eq_iff 0xF 0x29),
    encodedAs_of_encode (fun _ => rfl) (encodeX_eq_iff 0xF 0x33),
    encodedAs_of_encode (fun _ => rfl) (encodeX_eq_iff 0xF 0x55),
    encodedAs_of_encode (fun _ => rfl) (encodeX_eq_iff 0xF 0x65),
    nofun⟩

/-- Settles O1: the rows are counted, and each selects the words that encode its instruction. -/
theorem opcodeMapSelectsByMaskAndMatch : Obligations.OpcodeMapSelectsByMaskAndMatch := ⟨rfl, opcodeMap_encodedAs⟩

/-! ### Every instruction has a row -/

section
variable (c n : BitVec 4) (x y : Reg) (kk : Byte) (nnn : Word)

theorem encodeNNN_and_F000 : encodeNNN c nnn &&& 0xF000#16 = encodeNNN c 0#16 :=
  and_F000_eq_iff.mpr (fieldClass_encodeNNN ..)

theorem encodeXKK_and_F000 : encodeXKK c x kk &&& 0xF000#16 = encodeNNN c 0#16 :=
  and_F000_eq_iff.mpr (fieldClass_encodeXKK ..)

theorem encodeXYN_and_F000 : encodeXYN c x y n &&& 0xF000#16 = encodeNNN c 0#16 :=
  and_F000_eq_iff.mpr (fieldClass_encodeXYN ..)

theorem encodeXYN_and_F00F : encodeXYN c x y n &&& 0xF00F#16 = encodeXYN c 0 0 n :=
  and_F00F_eq_iff.mpr ⟨fieldClass_encodeXYN .., fieldN_encodeXYN ..⟩

theorem encodeXKK_and_F0FF : encodeXKK c x kk &&& 0xF0FF#16 = encodeXKK c 0 kk :=
  and_F0FF_eq_iff.mpr ⟨fieldClass_encodeXKK .., fieldKK_encodeXKK ..⟩

end

theorem matches_row (k : Fin 34) {w : Word} (h : w &&& opcodeMap[k].mask = opcodeMap[k].value) :
    ∃ row ∈ opcodeMap, w &&& row.mask = row.value :=
  ⟨_, List.getElem_mem _, h⟩

/-- The rows stand in the order of the instructions. -/
theorem encode_matches_a_row (i : Instr) : ∃ row ∈ opcodeMap, encode i &&& row.mask = row.value := by
  cases i with
  | cls => exact matches_row 0 rfl
  | ret => exact matches_row 1 rfl
  | jp => exact matches_row 2 (encodeNNN_and_F000 ..)
  | call => exact matches_row 3 (encodeNNN_and_F000 ..)
  | seImm => exact matches_row 4 (encodeXKK_and_F000 ..)
  | sneImm => exact matches_row 5 (encodeXKK_and_F000 ..)
  | seReg => exact matches_row 6 (encodeXYN_and_F00F ..)
  | ldImm => exact matches_row 7 (encodeXKK_and_F000 ..)
  | addImm => exact matches_row 8 (encodeXKK_and_F000 ..)
  | ldReg => exact matches_row 9 (encodeXYN_and_F00F ..)
  | orReg => exact matches_row 10 (encodeXYN_and_F00F ..)
  | andReg => exact matches_row 11 (encodeXYN_and_F00F ..)
  | xorReg => exact matches_row 12 (encodeXYN_and_F00F ..)
  | addReg => exact matches_row 13 (encodeXYN_and_F00F ..)
  | subReg => exact matches_row 14 (encodeXYN_and_F00F ..)
  | shr => exact matches_row 15 (encodeXYN_and_F00F ..)
  | subnReg => exact matches_row 16 (encodeXYN_and_F00F ..)
  | shl => exact matches_row 17 (encodeXYN_and_F00F ..)
  | sneReg => exact matches_row 18 (encodeXYN_and_F00F ..)
  | ldI => exact matches_row 19 (encodeNNN_and_F000 ..)
  | jpV0 => exact matches_row 20 (encodeNNN_and_F000 ..)
  | rnd => exact matches_row 21 (encodeXKK_and_F000 ..)
  | drw => exact matches_row 22 (encodeXYN_and_F000 ..)
  | skp => exact matches_row 23 (encodeXKK_and_F0FF ..)
  | sknp => exact matches_row 24 (encodeXKK_and_F0FF ..)
  | ldVxDT => exact matches_row 25 (encodeXKK_and_F0FF ..)
  | ldVxK => exact matches_row 26 (encodeXKK_and_F0FF ..)
  | ldDTVx => exact matches_row 27 (encodeXKK_and_F0FF ..)
  | ldSTVx => exact matches_row 28 (encodeXKK_and_F0FF ..)
  | addIVx => exact matches_row 29 (encodeXKK_and_F0FF ..)
  | ldFVx => exact matches_row 30 (encodeXKK_and_F0FF ..)
  | ldBVx => exact matches_row 31 (encodeXKK_and_F0FF ..)
  | ldMemVx => exact matches_row 32 (encodeXKK_and_F0FF ..)
  | ldVxMem => exact matches_row 33 (encodeXKK_and_F0FF ..)

/-! ### The patterns are disjoint -/

/-- Two rows that agree on the bits that both fix have the same pattern. -/
theorem opcodeMap_disjoint : ∀ p ∈ opcodeMap, ∀ q ∈ opcodeMap,
    p.value &&& q.mask = q.value &&& p.mask → p.mask = q.mask ∧ p.value = q.value := by
  decide

theorem unknownOpcode_iff_no_row (w : Word) :
    decodeWord w = .error (.unknownOpcode w) ↔ ∀ row ∈ opcodeMap, w &&& row.mask ≠ row.value := by
  constructor
  · intro h row hrow hw
    rw [(opcodeMap_encodedAs row hrow w).mpr hw] at h
    cases h
  · intro h
    cases hd : decodeWord w with
    | error r => rw [eq_unknownOpcode_of_decodeWord hd]
    | ok i =>
      obtain ⟨row, hrow, hi⟩ := encode_matches_a_row i
      rw [encode_of_decodeWord hd] at hi
      exact absurd hi (h row hrow)

/-- Settles O2: a word that matches two rows makes them agree on the bits that both fix. -/
theorem unknownOpcodeExactlyOutsideTheMap : Obligations.UnknownOpcodeExactlyOutsideTheMap := by
  refine ⟨fun w p hp q hq hwp hwq => opcodeMap_disjoint p hp q hq ?_, unknownOpcode_iff_no_row,
    fun w r h => eq_unknownOpcode_of_decodeWord h⟩
  rw [← hwp, ← hwq, BitVec.and_assoc, BitVec.and_assoc, BitVec.and_comm p.mask]

/-! ### The unknown space by class (R87) -/

section
variable (w : Word)

theorem fieldN_eq_zero_iff : fieldN w = 0x0#4 ↔ w.toNat % 16 = 0 := by
  rw [← BitVec.toNat_inj, fieldN_toNat, BitVec.toNat_ofNat]

theorem decodeClass0_unknown_iff :
    decodeClass0 w = .error (.unknownOpcode w) ↔ w ≠ 0x00E0#16 ∧ w ≠ 0x00EE#16 := by
  unfold decodeClass0
  split
  case isTrue h => exact iff_of_false nofun fun hw => hw.1 h
  case isFalse h =>
    split
    case isTrue h' => exact iff_of_false nofun fun hw => hw.2 h'
    case isFalse h' => exact iff_of_true rfl ⟨h, h'⟩

theorem decodeClass5_unknown_iff : decodeClass5 w = .error (.unknownOpcode w) ↔ w.toNat % 16 ≠ 0 := by
  rw [decodeClass5, ne_eq, ← fieldN_eq_zero_iff]
  split
  case isTrue h => exact iff_of_false nofun (not_not_intro h)
  case isFalse h => exact iff_of_true rfl h

theorem decodeClass9_unknown_iff : decodeClass9 w = .error (.unknownOpcode w) ↔ w.toNat % 16 ≠ 0 := by
  rw [decodeClass9, ne_eq, ← fieldN_eq_zero_iff]
  split
  case isTrue h => exact iff_of_false nofun (not_not_intro h)
  case isFalse h => exact iff_of_true rfl h

theorem decodeClass8_unknown_iff :
    decodeClass8 w = .error (.unknownOpcode w) ↔ w.toNat % 16 ∈ [0x8, 0x9, 0xA, 0xB, 0xC, 0xD, 0xF] := by
  have hlt := (fieldN w).isLt
  rw [← fieldN_toNat]
  unfold decodeClass8
  split
  case h_10 =>
    refine iff_of_true rfl ?_
    simp only [List.mem_cons, List.not_mem_nil, or_false]
    simp only [imp_false] at *
    omega
  all_goals exact iff_of_false nofun (by rw [‹(fieldN w).toNat = _›]; decide)

theorem decodeClassE_unknown_iff :
    decodeClassE w = .error (.unknownOpcode w) ↔ w.toNat % 256 ∉ [0x9E, 0xA1] := by
  rw [← fieldKK_toNat]
  unfold decodeClassE
  split
  case h_3 h1 h2 => exact iff_of_true rfl (by simpa using ⟨h1, h2⟩)
  all_goals exact iff_of_false nofun (by rw [‹(fieldKK w).toNat = _›]; decide)

theorem decodeClassF_unknown_iff : decodeClassF w = .error (.unknownOpcode w) ↔
    w.toNat % 256 ∉ [0x07, 0x0A, 0x15, 0x18, 0x1E, 0x29, 0x33, 0x55, 0x65] := by
  rw [← fieldKK_toNat]
  unfold decodeClassF
  split
  case h_10 h1 h2 h3 h4 h5 h6 h7 h8 h9 => exact iff_of_true rfl (by simpa using ⟨h1, h2, h3, h4, h5, h6, h7, h8, h9⟩)
  all_goals exact iff_of_false nofun (by rw [‹(fieldKK w).toNat = _›]; decide)

end

/-- Settles O3: the class selects the row of the table, and the class's own decoder what of it is unknown. -/
theorem unknownSpaceByClass : Obligations.UnknownSpaceByClass := by
  intro w
  rw [← fieldClass_toNat]
  unfold decodeWord
  split
  case h_1 hc => simpa [hc] using decodeClass0_unknown_iff w
  case h_6 hc => simpa [hc] using decodeClass5_unknown_iff w
  case h_9 hc => simpa [hc] using decodeClass8_unknown_iff w
  case h_10 hc => simpa [hc] using decodeClass9_unknown_iff w
  case h_15 hc => simpa [hc] using decodeClassE_unknown_iff w
  case h_16 hc => simpa [hc] using decodeClassF_unknown_iff w
  case h_17 =>
    have hlt := (fieldClass w).isLt
    simp only [imp_false] at *
    omega
  all_goals simp [‹(fieldClass w).toNat = _›]

/-- Settles O6, by evaluation. -/
theorem sampleWordsDecode : Obligations.SampleWordsDecode := by
  unfold Obligations.SampleWordsDecode
  decide

end Sys2Proof.Machine

/-! ## Where a step leaves the program counter (R94, R96, R111 to R113, R194, R264, R265, R271) -/

namespace Sys2Proof.Machine

/-- Settles O19: every kind of event answers a next state. -/
theorem everyStepAnswersANextState : Obligations.EveryStepAnswersANextState := step_next

/-- Settles O14: an instruction that does not fault ends in `completed`, whose `pc` is its signal's target. -/
theorem signalsMoveTheProgramCounter : Obligations.SignalsMoveTheProgramCounter := by
  intro i s hnf
  have hpc {sig : Signal} (h : tableSignal s i = sig) : (completed s i).pc = sig.target s.pc := by rw [completed, h]
  refine ⟨completed s i, ?_, decide_eq_true_iff, hpc, hpc, hpc, fun _ => hpc, hpc, fun hle => ?_⟩
  · rw [exec_eq, hnf]
    rfl
  · exact ⟨toNat_add_of_fetchable 2 hle (by decide), toNat_add_of_fetchable 4 hle (by decide)⟩

/-! ### The steps that leave `pc` -/

section
variable {i : Instr} {s t : State}

theorem Signal.target_eq_self {sig : Signal} {pc : Word} (h : sig.target pc = pc) : sig = .block ∨ sig = .jump pc := by
  cases sig with
  | advance | advanceAndRedraw | skip => exact absurd (add_eq_left.mp h) (by decide)
  | jump a => exact .inr (congrArg _ h)
  | block => exact .inl rfl

theorem keyWait_of_signal_block (h : tableSignal s i = .block) : ∃ x, i = .ldVxK x ∧ s.keys = 0#16 := by
  cases i with
  | ldVxK x =>
    rw [tableSignal] at h
    split at h
    case isTrue hk => exact ⟨x, rfl, hk⟩
    case isFalse => cases h
  | seImm | sneImm | seReg | sneReg | skp | sknp =>
    rw [tableSignal] at h
    split at h <;> cases h
  | _ => cases h

theorem transfer_of_signal_jump {a : Word} (h : tableSignal s i = .jump a) :
    i = .jp a ∨ i = .call a ∨ (∃ nnn, i = .jpV0 nnn ∧ BitVec.ofNat 16 (nnn.toNat + (s.reg 0).toNat) = a) ∨
      (i = .ret ∧ s.stack[s.sp] = a) := by
  cases i with
  | jp nnn => cases h; exact .inl rfl
  | call nnn => cases h; exact .inr (.inl rfl)
  | jpV0 nnn => cases h; exact .inr (.inr (.inl ⟨nnn, rfl, rfl⟩))
  | ret => cases h; exact .inr (.inr (.inr ⟨rfl, rfl⟩))
  | seImm | sneImm | seReg | sneReg | skp | sknp | ldVxK =>
    rw [tableSignal] at h
    split at h <;> cases h
  | _ => cases h

theorem wait_or_self_transfer (hnf : tableFault s i = none) (h : exec i s = .next t) (hpc : t.pc = s.pc) :
    (∃ x, i = .ldVxK x ∧ s.keys = 0#16) ∨ i = .jp s.pc ∨ i = .call s.pc ∨
      (∃ nnn, i = .jpV0 nnn ∧ BitVec.ofNat 16 (nnn.toNat + (s.reg 0).toNat) = s.pc) ∨
      (i = .ret ∧ s.stack[s.sp] = s.pc) := by
  obtain ⟨f, hf, -⟩ | ⟨-, rfl⟩ := exec_ends h
  · cases hnf.symm.trans hf
  · exact (Signal.target_eq_self hpc).imp keyWait_of_signal_block transfer_of_signal_jump

end

/-! ### A key wait ends -/

section
variable {s t : State} {x : Reg} {e : Event}

theorem afterStep_eq (he : s.nextEvent = e) (h : performEvent e s.takeEvent = .next t) : s.afterStep = t := by
  have hstep := step_afterStep s
  rw [step, he, h] at hstep
  cases hstep
  rfl

theorem State.takeEvent_keys (s : State) : s.takeEvent.keys = s.keys := by
  obtain ⟨p, c, hs⟩ := s.takeEvent_eq
  rw [hs]

/-- What a key wait rests on and leaves alone. -/
def waitView (s : State) : Vector Byte 16 × Memory × Word × Option LatchedFault := (s.V, s.mem, s.pc, s.fault)

theorem waitView_takeEvent (s : State) : waitView s.takeEvent = waitView s := by
  obtain ⟨p, c, hs⟩ := s.takeEvent_eq
  rw [hs]
  rfl

theorem waitView_timerStep (s : State) : waitView (timerStep s) = waitView s := by
  unfold timerStep
  split <;> rfl

/-- The machine stands at a word that it can fetch and that is `Fx0A`. -/
structure AtKeyWait (s : State) (x : Reg) : Prop where
  running : s.Running
  fetchable : s.pc.toNat ≤ 0xFFE
  decodes : decodeWord s.fetchedWord = .ok (.ldVxK x)

theorem AtKeyWait.of_waitView (hs : AtKeyWait s x) (h : waitView t = waitView s) : AtKeyWait t x := by
  obtain ⟨hrun, hpc, hdec⟩ := hs
  simp only [waitView, Prod.mk.injEq] at h
  obtain ⟨-, hm, hp, hf⟩ := h
  refine ⟨hf.trans hrun, hp ▸ hpc, ?_⟩
  rwa [State.fetchedWord, hm, hp]

theorem AtKeyWait.instrStep (hs : AtKeyWait s x) : instrStep s = .next (completed s (.ldVxK x)) := by
  rw [instrStep_eq, if_neg (by simp [hs.running]), if_pos hs.fetchable, hs.decodes]
  exact exec_eq (.ldVxK x) s

/-- With no key pressed an instruction step only clears `redraw`. -/
theorem waitView_blocked (hk : s.keys = 0#16) : waitView (completed s (.ldVxK x)) = waitView s := by
  simp only [waitView, completed, ownWrites, tableSignal, if_pos hk, State.lowestKey_none_iff.mpr hk, Option.elim,
    Signal.target]

/-- A tick or a key update leaves a key wait where it is, but for an instruction tick that finds a key. -/
theorem AtKeyWait.waitView_afterStep (hs : AtKeyWait s x)
    (he : s.nextEvent = .instrTick ∨ s.nextEvent = .timerTick ∨ ∃ keys, s.nextEvent = .driveKeys keys)
    (hk : ¬(s.nextEvent = .instrTick ∧ s.keys ≠ 0x0000#16)) : waitView s.afterStep = waitView s := by
  have htake := waitView_takeEvent s
  refine Eq.trans ?_ htake
  obtain he | he | ⟨keys, he⟩ := he
  · rw [afterStep_eq he (hs.of_waitView htake).instrStep]
    exact waitView_blocked (s.takeEvent_keys.trans (not_not.mp (not_and.mp hk he)))
  · rw [afterStep_eq he rfl]
    exact waitView_timerStep s.takeEvent
  · rw [afterStep_eq he rfl]
    rfl

/-- Up to the first instruction tick that finds a key the run stays at the key wait. -/
theorem AtKeyWait.waitView_afterSteps {m : Nat} (hs : AtKeyWait s x) (honly : TicksAndKeysOnly s)
    (hmin : ∀ j < m, ¬((s.afterSteps j).nextEvent = .instrTick ∧ (s.afterSteps j).keys ≠ 0x0000#16)) :
    ∀ j ≤ m, waitView (s.afterSteps j) = waitView s := by
  intro j
  induction j with
  | zero => exact fun _ => rfl
  | succ j ih =>
    intro hj
    have hview := ih (Nat.le_of_lt hj)
    rw [State.afterSteps_succ]
    exact ((hs.of_waitView hview).waitView_afterStep (honly j) (hmin j hj)).trans hview

theorem pc_reg_of_waitView (h : waitView t = waitView s) : t.pc = s.pc ∧ ∀ r, t.reg r = s.reg r := by
  simp only [waitView, Prod.mk.injEq] at h
  obtain ⟨hV, -, hp, -⟩ := h
  exact ⟨hp, fun r => by rw [State.reg, hV, State.reg]⟩

theorem completed_ldVxK_of_pressed {k : Nat} (hk : s.lowestKey = some k) :
    (completed s (.ldVxK x)).pc = s.pc + 2 ∧
      ∀ r, (completed s (.ldVxK x)).reg r = if r = x then BitVec.ofNat 8 k else s.reg r := by
  have hne : s.keys ≠ 0#16 := fun e => nomatch (State.lowestKey_none_iff.mpr e).symm.trans hk
  refine ⟨?_, fun r => ?_⟩
  · rw [completed, tableSignal, if_neg hne]
    rfl
  · rw [← State.reg_setReg, State.setReg, completed, ownWrites, hk]
    rfl

/-- An instruction tick that finds a key goes on with the lowest one in `Vx` (R194). -/
theorem AtKeyWait.released (hs : AtKeyWait s x) (he : s.nextEvent = .instrTick) (hk : s.keys ≠ 0#16) :
    ∃ k < 16, s.keys.getLsbD k = true ∧ (∀ j, j < k → s.keys.getLsbD j = false) ∧ s.afterStep.pc = s.pc + 2 ∧
      ∀ r, s.afterStep.reg r = if r = x then BitVec.ofNat 8 k else s.reg r := by
  have htake := waitView_takeEvent s
  obtain ⟨hpc, hreg⟩ := pc_reg_of_waitView htake
  have hkeys := s.takeEvent_keys
  obtain ⟨k, hlow⟩ := Option.ne_none_iff_exists'.mp (mt State.lowestKey_none_iff.mp (hkeys ▸ hk))
  obtain ⟨hlt, hpressed, hfirst⟩ := State.lowestKey_some hlow
  obtain ⟨hpc', hreg'⟩ := completed_ldVxK_of_pressed (x := x) hlow
  simp only [State.keyPressed, hkeys] at hpressed hfirst
  rw [afterStep_eq he (hs.of_waitView htake).instrStep]
  exact ⟨k, hlt, hpressed, hfirst, hpc ▸ hpc', fun r => hreg r ▸ hreg' r⟩

theorem AtKeyWait.ends (hs : AtKeyWait s x) (honly : TicksAndKeysOnly s) (hkey : KeyEventuallyPressed s) :
    ∃ m k : Nat, (∀ j, j ≤ m → (s.afterSteps j).pc = s.pc ∧ ∀ r : Reg, (s.afterSteps j).reg r = s.reg r) ∧
      k < 16 ∧ (s.afterSteps m).keys.getLsbD k = true ∧ (∀ j, j < k → (s.afterSteps m).keys.getLsbD j = false) ∧
      (s.afterSteps (m + 1)).pc = s.pc + 2 ∧ ((s.afterSteps (m + 1)).reg x).toNat = k ∧
      ∀ r : Reg, r ≠ x → (s.afterSteps (m + 1)).reg r = s.reg r := by
  obtain ⟨m, ⟨htick, hne⟩, hmin⟩ := Nat.findX hkey
  have hview := hs.waitView_afterSteps honly hmin
  obtain ⟨hpc, hreg⟩ := pc_reg_of_waitView (hview m (Nat.le_refl m))
  obtain ⟨k, hlt, hpressed, hfirst, hpc', hreg'⟩ := (hs.of_waitView (hview m (Nat.le_refl m))).released htick hne
  rw [← State.afterSteps_succ] at hpc' hreg'
  refine ⟨m, k, fun j hj => pc_reg_of_waitView (hview j hj), hlt, hpressed, hfirst, hpc ▸ hpc', ?_, fun r hr => ?_⟩
  · rw [hreg', if_pos rfl, BitVec.toNat_ofNat]
    omega
  · rw [hreg', if_neg hr, hreg]

end

/-! ### A delay loop ends -/

section
variable {s : State}

theorem countDown_toNat (b : Byte) : (countDown b).toNat = b.toNat - 1 := by
  unfold countDown
  split
  case isTrue h => rw [h]; rfl
  case isFalse h => bv_omega

theorem afterStep_DT_of_timerTick (hrun : s.Running) (he : s.nextEvent = .timerTick) :
    s.afterStep.DT = countDown s.DT := by
  obtain ⟨p, c, hs⟩ := s.takeEvent_eq
  rw [afterStep_eq he rfl, hs, timerStep, State.halted, hrun]
  rfl

/-- `DT` as a number after `n` steps. -/
def delayAfter (s : State) (n : Nat) : Nat := (s.afterSteps n).DT.toNat

theorem delayAfter_of_timerTick {n : Nat} (hrun : (s.afterSteps n).Running)
    (he : (s.afterSteps n).nextEvent = .timerTick) : delayAfter s (n + 1) = delayAfter s n - 1 := by
  rw [delayAfter, State.afterSteps_succ, afterStep_DT_of_timerTick hrun he, countDown_toNat, delayAfter]

theorem delayAfter_antitone (hrun : ∀ n, (s.afterSteps n).Running)
    (hkeep : ∀ n, (s.afterSteps n).nextEvent ≠ .timerTick → (s.afterSteps (n + 1)).DT = (s.afterSteps n).DT) :
    Antitone (delayAfter s) := by
  refine antitone_nat_of_succ_le fun n => ?_
  by_cases he : (s.afterSteps n).nextEvent = .timerTick
  · exact (delayAfter_of_timerTick (hrun n) he).trans_le (Nat.sub_le ..)
  · exact (congrArg BitVec.toNat (hkeep n he)).le

/-- `DT` is least somewhere on the run, and the next timer step leaves it no less only at 0. -/
theorem delay_runs_out (hrun : ∀ n, (s.afterSteps n).Running) (hrecur : TimerStepsRecur s)
    (hkeep : ∀ n, (s.afterSteps n).nextEvent ≠ .timerTick → (s.afterSteps (n + 1)).DT = (s.afterSteps n).DT) :
    ∃ n, (s.afterSteps n).DT = 0x00#8 := by
  obtain ⟨m, hm, he⟩ := hrecur (Function.argmin (delayAfter s))
  have hle : delayAfter s m ≤ delayAfter s (Function.argmin (delayAfter s)) := delayAfter_antitone hrun hkeep hm
  have hleast := Function.argmin_le (delayAfter s) (m + 1)
  rw [delayAfter_of_timerTick (hrun m) he] at hleast
  have hzero : delayAfter s m = 0 := by omega
  exact ⟨m, BitVec.eq_of_toNat_eq hzero⟩

end

/-- Settles O16: `pc` stays only under a block or a jump to itself; the first instruction tick that finds a key ends a
key wait; and `DT` has a least value on the run. -/
theorem onlyWaitsAndSelfTransfersLeaveThePc : Obligations.OnlyWaitsAndSelfTransfersLeaveThePc :=
  ⟨fun _ _ _ => wait_or_self_transfer, fun _ _ hrun hpc hdec => AtKeyWait.ends ⟨hrun, hpc, hdec⟩,
    fun _ => delay_runs_out⟩

end Sys2Proof.Machine

/-! ## Control transfer and the unknown word (R94, R110 to R120) -/

namespace Sys2Proof.Machine

/-! ### The conclusions of a statement about one instruction -/

/-- The rows of the map by their number in R86, from 0. -/
theorem opcodeMap_row_encodedAs (k : Fin 34) : EncodedAs opcodeMap[k].mask opcodeMap[k].value opcodeMap[k].build :=
  opcodeMap_encodedAs _ (List.getElem_mem k.isLt)

section
variable {i : Instr} {s : State} {w : Writes} {pc : Word}

theorem exec_completed (hnf : tableFault s i = none) : exec i s = .next (completed s i) := by
  rw [exec_eq, hnf]
  rfl

theorem exec_latches {cause : FaultCause} {info : Word} (hf : tableFault s i = some ⟨cause, info⟩) :
    ∃ t, exec i s = .next t ∧ Latches cause info s t := by
  rw [exec_eq, hf]
  exact ⟨_, rfl, rfl⟩

/-- The signal of a `Dxyn` is the only one that leaves `redraw` set, so any other instruction leaves it clear. -/
theorem completed_ends (hdrw : ∀ x y n, i ≠ .drw x y n) (hpc : (tableSignal s i).target s.pc = pc)
    (hkeeps : Keeps w s (ownWrites s i)) : Ends w pc false s (completed s i) := by
  have hredraw : tableSignal s i ≠ .advanceAndRedraw := fun h =>
    let ⟨x, y, n, hi⟩ := tableSignal_redraw_iff.mp h
    hdrw x y n hi
  exact ⟨hpc, decide_eq_false hredraw, hkeeps.finish _ _⟩

/-- A transfer has no writes of its own: it moves `pc` by its signal and clears `redraw`. -/
theorem exec_transfer_ends (hnf : tableFault s i = none) (hdrw : ∀ x y n, i ≠ .drw x y n) (hown : ownWrites s i = s)
    (hpc : (tableSignal s i).target s.pc = pc) : ∃ t, exec i s = .next t ∧ Ends {} pc false s t :=
  ⟨_, exec_completed hnf, completed_ends hdrw hpc (hown.symm ▸ Keeps.refl {} s)⟩

end

/-! ### Jumps and skips -/

/-- Settles O31: `1nnn` is a transfer to its operand. -/
theorem jpJumps : Obligations.JpJumps :=
  ⟨opcodeMap_row_encodedAs 2, fun _ _ => exec_transfer_ends rfl nofun rfl rfl⟩

theorem jpV0_target_toNat (s : State) {nnn : Word} (hnnn : nnn.toNat ≤ 0xFFF) :
    ((tableSignal s (.jpV0 nnn)).target s.pc).toNat = nnn.toNat + (s.reg 0).toNat := by
  have hbyte := (s.reg 0).isLt
  exact (BitVec.toNat_ofNat ..).trans (Nat.mod_eq_of_lt (by omega))

/-- Settles O36: the sum of a 12-bit address and a byte is below 65536, so it is exact. -/
theorem jpV0AddsTheOffset : Obligations.JpV0AddsTheOffset :=
  ⟨opcodeMap_row_encodedAs 20, fun _ s hnnn =>
    ⟨_, exec_completed rfl, jpV0_target_toNat s hnnn, completed_ends nofun rfl (Keeps.refl {} s)⟩⟩

theorem Signal.target_ite (c : Prop) [Decidable c] (a b : Signal) (pc : Word) :
    (if c then a else b).target pc = if c then a.target pc else b.target pc := apply_ite (Signal.target pc) c a b

/-- Settles O34: both skips are transfers whose signal their condition selects. -/
theorem skipsOnAnImmediate : Obligations.SkipsOnAnImmediate :=
  ⟨opcodeMap_row_encodedAs 4, opcodeMap_row_encodedAs 5, fun _ _ s =>
    ⟨exec_transfer_ends rfl nofun rfl (Signal.target_ite ..),
      exec_transfer_ends rfl nofun rfl (Signal.target_ite ..)⟩⟩

/-- Settles O35: as with an immediate, both skips are transfers whose signal their condition selects. -/
theorem skipsOnARegister : Obligations.SkipsOnARegister :=
  ⟨opcodeMap_row_encodedAs 6, opcodeMap_row_encodedAs 18, fun _ _ s =>
    ⟨exec_transfer_ends rfl nofun rfl (Signal.target_ite ..),
      exec_transfer_ends rfl nofun rfl (Signal.target_ite ..)⟩⟩

/-! ### Calls and returns -/

theorem Keeps.pop (s : State) : Keeps { pointer := true } s s.pop :=
  { Keeps.refl { pointer := true } s with pointer := nofun }

theorem Keeps.push (s : State) (a : Word) : Keeps { pointer := true, entries := [s.sp + 1] } s (s.push a) :=
  { Keeps.refl { pointer := true, entries := [s.sp + 1] } s with
    pointer := nofun
    entries := fun k hk => (s.push_stack a k).trans (if_neg (List.ne_of_not_mem_cons hk)) }

/-- Settles O30: the guard is the table's, and the pop writes the pointer alone. -/
theorem retPopsTheReturnAddress : Obligations.RetPopsTheReturnAddress := by
  refine ⟨opcodeMap_row_encodedAs 1, fun s => ⟨fun hsp => ?_, fun hsp => ?_⟩⟩
  · exact exec_latches (if_pos (s.sp_val_zero.mpr hsp))
  · have hpos : s.sp.val ≠ 0 := mt s.sp_val_zero.mp hsp
    have hval : s.pop.sp.val + 1 = s.sp.val := by
      rw [s.pop_sp_val hsp]
      omega
    exact ⟨_, exec_completed (if_neg hpos), hval, completed_ends nofun rfl (Keeps.pop s)⟩

/-- Settles O32: the guard is the table's, and the push writes the pointer and the entry that it then names. -/
theorem callPushesTheReturnAddress : Obligations.CallPushesTheReturnAddress := by
  refine ⟨opcodeMap_row_encodedAs 3, fun nnn s => ⟨fun hsp => ?_, fun hsp => ?_⟩⟩
  · exact exec_latches (if_pos (s.sp_val_last.mpr hsp))
  · exact ⟨_, exec_completed (if_neg (mt s.sp_val_last.mp hsp)), s.push_sp_val (s.pc + 2) hsp, s.top_push (s.pc + 2),
      completed_ends nofun rfl (Keeps.push s (s.pc + 2))⟩

/-! ### The unknown word -/

theorem instrStep_of_unknown {s : State} (hrun : s.Running) (hpc : s.pc.toNat ≤ 0xFFE)
    (hdec : decodeWord s.fetchedWord = .error (.unknownOpcode s.fetchedWord)) :
    instrStep s = .next { s with redraw := false, pc := s.pc + 2 } := by
  rw [instrStep_eq, if_neg (by simp [hrun]), if_pos hpc, hdec]
  rfl

/-- Settles O9: a word outside every row is the unknown opcode, whose step has no writes but those of its end. -/
theorem unknownWordOnlyAdvances : Obligations.UnknownWordOnlyAdvances := by
  intro s hrun hpc hno
  exact ⟨_, instrStep_of_unknown hrun hpc ((unknownOpcode_iff_no_row s.fetchedWord).mpr hno), rfl, rfl,
    (Keeps.refl {} s).finish (s.pc + 2) false⟩

end Sys2Proof.Machine

/-! ## Arithmetic, logic and random bytes (R131 to R144) -/

namespace Sys2Proof.Machine

/-! ### The conclusions of a statement about a register write, without and with a flag -/

section
variable {i : Instr} {s : State} {x : Reg} {b : Byte} {f : Bool}

theorem completed_reg (s : State) (i : Instr) (r : Reg) : (completed s i).reg r = (ownWrites s i).reg r := rfl

theorem exec_setReg_ends (hnf : tableFault s i = none) (hdrw : ∀ x y n, i ≠ .drw x y n)
    (hown : ownWrites s i = s.setReg x b) (hsig : tableSignal s i = .advance) :
    ∃ t, exec i s = .next t ∧ t.reg x = b ∧ Ends { regs := [x] } (s.pc + 2) false s t := by
  refine ⟨_, exec_completed hnf, ?_, completed_ends hdrw (congrArg (Signal.target s.pc) hsig) ?_⟩
  · rw [completed_reg, hown, State.reg_setReg_same]
  · exact hown ▸ Keeps.setReg b List.mem_cons_self

theorem flagByte_toNat (f : Bool) : (flagByte f).toNat = f.toNat := by cases f <;> rfl

/-- The flag is read as the number it stands for; the result stands only in a register other than `VF` (R137). -/
theorem exec_setRegThenFlag_ends (hnf : tableFault s i = none) (hdrw : ∀ x y n, i ≠ .drw x y n)
    (hown : ownWrites s i = s.setRegThenFlag x b f) (hsig : tableSignal s i = .advance) :
    ∃ t, exec i s = .next t ∧ (x ≠ 15 → t.reg x = b) ∧ (t.reg 15).toNat = f.toNat ∧
      Ends { regs := [x, 15] } (s.pc + 2) false s t := by
  refine ⟨_, exec_completed hnf, fun hx => ?_, ?_, completed_ends hdrw (congrArg (Signal.target s.pc) hsig) ?_⟩
  · rw [completed_reg, hown, State.reg_setRegThenFlag, if_neg (show x ≠ VF from hx), if_pos rfl]
  · rw [completed_reg, hown, State.reg_setRegThenFlag, if_pos (show (15 : Reg) = VF from rfl), flagByte_toNat]
  · exact hown ▸ Keeps.setRegThenFlag s x b f

end

/-! ### Bytes as numbers -/

section
variable (a b : Byte)

/-- The difference modulo 256 is the integer difference's remainder. -/
theorem toNat_sub_eq_emod : ((a - b).toNat : Int) = (a.toNat - b.toNat : Int) % 256 := by
  have := b.isLt
  rw [BitVec.toNat_sub]
  omega

theorem bitOutRight_toNat : (bitOutRight a).toNat = a.toNat % 2 :=
  (Nat.toNat_testBit a.toNat 0).trans (by rw [Nat.pow_zero, Nat.div_one])

/-- Nothing stands above bit 7 of a byte. -/
theorem bitOutLeft_toNat : (bitOutLeft a).toNat = a.toNat / 128 := by
  have := a.isLt
  exact (Nat.toNat_testBit a.toNat 7).trans (Nat.mod_eq_of_lt (by omega))

end

/-! ### Without a flag -/

/-- Settles O37: the byte is written as it is. -/
theorem ldImmLoadsTheByte : Obligations.LdImmLoadsTheByte :=
  ⟨opcodeMap_row_encodedAs 7, fun _ _ _ => exec_setReg_ends rfl nofun rfl rfl⟩

/-- Settles O39: the old `V[y]` is written as it is. -/
theorem ldRegCopiesTheRegister : Obligations.LdRegCopiesTheRegister :=
  ⟨opcodeMap_row_encodedAs 9, fun _ _ _ => exec_setReg_ends rfl nofun rfl rfl⟩

/-- Settles O38: the sum of bytes is the sum of numbers modulo 256. -/
theorem addImmAddsWithoutAFlag : Obligations.AddImmAddsWithoutAFlag := by
  refine ⟨opcodeMap_row_encodedAs 8, fun x kk s => ?_⟩
  obtain ⟨t, ht, hx, hends⟩ := exec_setReg_ends (i := .addImm x kk) (s := s) rfl nofun rfl rfl
  exact ⟨t, ht, hx ▸ BitVec.toNat_add .., hends⟩

/-- Settles O40: the library's reading of each bitwise operation, bit by bit. -/
theorem logicIsBitwiseWithoutAFlag : Obligations.LogicIsBitwiseWithoutAFlag := by
  refine ⟨opcodeMap_row_encodedAs 10, opcodeMap_row_encodedAs 11, opcodeMap_row_encodedAs 12, fun x y s => ⟨?_, ?_, ?_⟩⟩
  · obtain ⟨t, ht, hx, hends⟩ := exec_setReg_ends (i := .orReg x y) (s := s) rfl nofun rfl rfl
    exact ⟨t, ht, fun _ => hx ▸ BitVec.getLsbD_or, hends⟩
  · obtain ⟨t, ht, hx, hends⟩ := exec_setReg_ends (i := .andReg x y) (s := s) rfl nofun rfl rfl
    exact ⟨t, ht, fun _ => hx ▸ BitVec.getLsbD_and, hends⟩
  · obtain ⟨t, ht, hx, hends⟩ := exec_setReg_ends (i := .xorReg x y) (s := s) rfl nofun rfl rfl
    exact ⟨t, ht, fun _ => hx ▸ BitVec.getLsbD_xor, hends⟩

/-! ### With a flag -/

/-- Settles O41: the flag is the condition of R139 on the old values. -/
theorem addRegCarries : Obligations.AddRegCarries := by
  refine ⟨opcodeMap_row_encodedAs 13, fun x y s => ?_⟩
  obtain ⟨t, ht, hx, hflag, hends⟩ := exec_setRegThenFlag_ends (i := .addReg x y) (s := s) rfl nofun rfl rfl
  exact ⟨t, ht, fun h => hx h ▸ BitVec.toNat_add .., hflag.trans (Bool.cond_decide ..), hends⟩

/-- Settles O42: the flag is the condition of R140 on the old values. -/
theorem subRegFlagsNoBorrow : Obligations.SubRegFlagsNoBorrow := by
  refine ⟨opcodeMap_row_encodedAs 14, fun x y s => ?_⟩
  obtain ⟨t, ht, hx, hflag, hends⟩ := exec_setRegThenFlag_ends (i := .subReg x y) (s := s) rfl nofun rfl rfl
  exact ⟨t, ht, fun h => hx h ▸ toNat_sub_eq_emod .., hflag.trans (Bool.cond_decide ..), hends⟩

/-- Settles O44: the operands of O42 exchanged. -/
theorem subnRegFlagsNoBorrow : Obligations.SubnRegFlagsNoBorrow := by
  refine ⟨opcodeMap_row_encodedAs 16, fun x y s => ?_⟩
  obtain ⟨t, ht, hx, hflag, hends⟩ := exec_setRegThenFlag_ends (i := .subnReg x y) (s := s) rfl nofun rfl rfl
  exact ⟨t, ht, fun h => hx h ▸ toNat_sub_eq_emod .., hflag.trans (Bool.cond_decide ..), hends⟩

/-- Settles O43: the shift halves, and the flag is what halving loses. -/
theorem shrShiftsRightIntoTheFlag : Obligations.ShrShiftsRightIntoTheFlag := by
  refine ⟨opcodeMap_row_encodedAs 15, fun x y s => ?_⟩
  obtain ⟨t, ht, hx, hflag, hends⟩ := exec_setRegThenFlag_ends (i := .shr x y) (s := s) rfl nofun rfl rfl
  exact ⟨t, ht, fun h => hx h ▸ BitVec.toNat_ushiftRight .., hflag.trans (bitOutRight_toNat _), hends⟩

/-- Settles O45: the shift doubles, and the flag is what the byte has no room for. -/
theorem shlShiftsLeftIntoTheFlag : Obligations.ShlShiftsLeftIntoTheFlag := by
  refine ⟨opcodeMap_row_encodedAs 17, fun x y s => ?_⟩
  obtain ⟨t, ht, hx, hflag, hends⟩ := exec_setRegThenFlag_ends (i := .shl x y) (s := s) rfl nofun rfl rfl
  have hdouble : (s.reg x <<< 1).toNat = (s.reg x).toNat * 2 % 256 := by
    rw [BitVec.toNat_shiftLeft, Nat.shiftLeft_eq]
  exact ⟨t, ht, fun h => hx h ▸ hdouble, hflag.trans (bitOutLeft_toNat _), hends⟩

/-! ### The random byte -/

theorem State.randomByte_supplied {s : State} {b : Byte} {later : List Byte} (h : s.rnd = b :: later) :
    s.randomByte = b := by
  rw [State.randomByte, h]

theorem Keeps.randomSetReg (s : State) (x : Reg) (b : Byte) :
    Keeps { regs := [x], random := true } s (s.consumeRandom.setReg x b) :=
  { Keeps.setReg (w := { regs := [x], random := true }) (s := s) b List.mem_cons_self with random := nofun }

/-- Settles O46: the byte is the model's next one; that no other instruction takes one is a clause of O21. -/
theorem rndMasksARandomByte : Obligations.RndMasksARandomByte := by
  refine ⟨opcodeMap_row_encodedAs 21, fun x kk s => ?_, fun i s t hi h => ?_⟩
  · exact ⟨_, exec_completed rfl,
      ⟨s.randomByte, fun _ _ hsupplied => State.randomByte_supplied hsupplied, State.reg_setReg_same ..⟩, rfl, rfl,
      completed_ends nofun rfl (Keeps.randomSetReg s x (s.randomByte &&& kk))⟩
  · by_contra htaken
    obtain ⟨-, -, -, -, -, -, -, hrandom, -⟩ := onlyTheNamedInstructionsWrite i s t h
    obtain ⟨x, kk, rfl⟩ := hrandom (not_and_or.mp htaken)
    exact hi x kk rfl

end Sys2Proof.Machine

/-! ## The index register and memory (R160 to R166) -/

namespace Sys2Proof.Machine

/-! ### The conclusions of a statement about a write of the index register, a store and a load -/

theorem Keeps.setI (s : State) (a : Word) : Keeps { index := true } s { s with I := a } :=
  { Keeps.refl { index := true } s with index := nofun }

theorem Keeps.storeBytes (s : State) (bs : List Byte) :
    Keeps { stores := (s.I.toNat, bs.length) } s { s with mem := Memory.storeBytes s.mem s.I.toNat bs } :=
  { Keeps.refl { stores := (s.I.toNat, bs.length) } s with
    memory := fun _ ha => Memory.read_storeBytes_outside s.mem bs ha }

/-- The frame names the register group by its bound, the model by its list. -/
theorem mem_filter_le_iff (x r : Reg) : r ∈ (List.finRange 16).filter (· ≤ x) ↔ r ∈ groupRegs x := by
  rw [mem_groupRegs, List.mem_filter, decide_eq_true_iff, Fin.le_def]
  exact and_iff_right (List.mem_finRange r)

theorem Keeps.loadGroup (s : State) (x : Reg) :
    Keeps { regs := (List.finRange 16).filter (· ≤ x) } s
      { s with V := loadRegs s.mem s.I.toNat (groupRegs x) s.V } :=
  { Keeps.refl { regs := (List.finRange 16).filter (· ≤ x) } s with
    regs := fun r hr => reg_loadRegs_other x (mt (mem_filter_le_iff x r).mpr hr) }

section
variable {i : Instr} {s : State} {a : Word} {bs : List Byte}

theorem exec_setI_ends (hnf : tableFault s i = none) (hdrw : ∀ x y n, i ≠ .drw x y n)
    (hown : ownWrites s i = { s with I := a }) (hsig : tableSignal s i = .advance) :
    ∃ t, exec i s = .next t ∧ t.I = a ∧ Ends { index := true } (s.pc + 2) false s t :=
  ⟨_, exec_completed hnf, congrArg State.I hown,
    completed_ends hdrw (congrArg (Signal.target s.pc) hsig) (hown ▸ Keeps.setI s a)⟩

theorem exec_storeBytes_ends (hnf : tableFault s i = none) (hdrw : ∀ x y n, i ≠ .drw x y n)
    (hown : ownWrites s i = { s with mem := Memory.storeBytes s.mem s.I.toNat bs })
    (hsig : tableSignal s i = .advance) :
    ∃ t, exec i s = .next t ∧ (∀ j (h : j < bs.length), Memory.read t.mem (s.I.toNat + j) = bs[j]) ∧
      Ends { stores := (s.I.toNat, bs.length) } (s.pc + 2) false s t := by
  have hmem : (completed s i).mem = Memory.storeBytes s.mem s.I.toNat bs := congrArg State.mem hown
  refine ⟨_, exec_completed hnf, fun j h => ?_,
    completed_ends hdrw (congrArg (Signal.target s.pc) hsig) (hown ▸ Keeps.storeBytes s bs)⟩
  rw [hmem, Memory.read_storeBytes_inside]

end

/-! ### The index register -/

/-- Settles O47: the address is written as it is. -/
theorem ldILoadsTheAddress : Obligations.LdILoadsTheAddress :=
  ⟨opcodeMap_row_encodedAs 19, fun _ _ => exec_setI_ends rfl nofun rfl rfl⟩

theorem zext16_toNat (b : Byte) : (zext16 b).toNat = b.toNat :=
  BitVec.toNat_setWidth_of_le (by decide)

/-- Settles O48: the sum of words is the sum of numbers modulo 65536. -/
theorem addIAddsModulo65536 : Obligations.AddIAddsModulo65536 := by
  refine ⟨opcodeMap_row_encodedAs 29, fun x s => ?_⟩
  obtain ⟨t, ht, hI, hends⟩ := exec_setI_ends (i := .addIVx x) (s := s) rfl nofun rfl rfl
  exact ⟨t, ht, by rw [hI, BitVec.toNat_add, zext16_toNat], hends⟩

/-- Five times a byte fits in a word, so the product is exact. -/
theorem glyphAddress_toNat (v : Byte) : (glyphAddress v).toNat = 5 * v.toNat := by
  have hbyte := v.isLt
  rw [glyphAddress, BitVec.toNat_mul, zext16_toNat]
  exact Nat.mod_eq_of_lt (show 5 * v.toNat < 65536 by omega)

/-- Settles O49: the glyph address of the whole byte is written. -/
theorem ldFPointsAtTheGlyph : Obligations.LdFPointsAtTheGlyph := by
  refine ⟨opcodeMap_row_encodedAs 30, fun x s => ?_⟩
  obtain ⟨t, ht, hI, hends⟩ := exec_setI_ends (i := .ldFVx x) (s := s) rfl nofun rfl rfl
  exact ⟨t, ht, hI ▸ glyphAddress_toNat _, hends⟩

/-! ### Stores -/

@[simp] theorem decimalDigits_length (v : Byte) : (decimalDigits v).length = 3 := rfl

/-- Each decimal digit of a byte is below 256, so the byte that stands for it is exact. -/
theorem decimalDigits_toNat (v : Byte) :
    (decimalDigits v)[0].toNat = v.toNat / 100 ∧ (decimalDigits v)[1].toNat = v.toNat / 10 % 10 ∧
      (decimalDigits v)[2].toNat = v.toNat % 10 := by
  have hbyte := v.isLt
  simp only [decimalDigits, List.getElem_cons_zero, List.getElem_cons_succ, BitVec.toNat_ofNat]
  omega

/-- Settles O50: the store writes the digits in order, and each is the number R164 gives. -/
theorem ldBStoresTheDecimalDigits : Obligations.LdBStoresTheDecimalDigits := by
  refine ⟨opcodeMap_row_encodedAs 31, fun x s => ⟨fun hin => ?_, fun hout => exec_latches (if_pos hout)⟩⟩
  obtain ⟨t, ht, hread, hends⟩ :=
    exec_storeBytes_ends (i := .ldBVx x) (s := s) (if_neg (Nat.not_lt.mpr hin)) nofun rfl rfl
  obtain ⟨hhundreds, htens, hunits⟩ := decimalDigits_toNat (s.reg x)
  exact ⟨t, ht, hread 0 (by simp) ▸ hhundreds, hread 1 (by simp) ▸ htens, hread 2 (by simp) ▸ hunits, hends⟩

/-- Settles O51: the store writes the bytes of the group, byte `r` being register `r`. -/
theorem ldMemStoresTheRegisters : Obligations.LdMemStoresTheRegisters := by
  refine ⟨opcodeMap_row_encodedAs 32, fun x s => ⟨fun hin => ?_, fun hout => exec_latches (if_pos hout)⟩⟩
  obtain ⟨t, ht, hread, hends⟩ :=
    exec_storeBytes_ends (i := .ldMemVx x) (s := s) (if_neg (Nat.not_lt.mpr hin)) nofun rfl rfl
  have hlen : (s.groupBytes x).length = x.val + 1 := s.groupBytes_length x
  refine ⟨t, ht, fun r hr => ?_, hlen ▸ hends⟩
  have hlt : r.val < (s.groupBytes x).length := hlen ▸ Nat.lt_succ_of_le hr
  exact (hread r.val hlt).trans (s.groupBytes_getElem x r hlt)

/-! ### The load, and the round trip -/

/-- Settles O52: the load gives each register of the group its byte and no other register one. -/
theorem ldVxMemLoadsTheRegisters : Obligations.LdVxMemLoadsTheRegisters := by
  refine ⟨opcodeMap_row_encodedAs 33, fun x s => ⟨fun hin => ?_, fun hout => exec_latches (if_pos hout)⟩⟩
  refine ⟨_, exec_completed (if_neg (Nat.not_lt.mpr hin)), fun r hr => ?_,
    completed_ends nofun rfl (Keeps.loadGroup s x)⟩
  exact (loadRegs_getElem s.mem s.I.toNat (groupRegs x) s.V r).trans (if_pos ((mem_groupRegs x r).mpr hr))

/-- Settles O53: the dump (O51) keeps `I` and puts `V[r]` where the load (O52) reads it. -/
theorem dumpThenLoadRestoresTheRegisters : Obligations.DumpThenLoadRestoresTheRegisters := by
  intro x s t V pc hin h
  obtain ⟨t', ht', hstored, -, -, hdump⟩ := (ldMemStoresTheRegisters.2 x s).1 hin
  obtain rfl : t = t' := Host.Outcome.next.inj (h.symm.trans ht')
  have hI : t.I = s.I := hdump.index rfl
  obtain ⟨u, hu, hloaded, -, -, hload⟩ :=
    (ldVxMemLoadsTheRegisters.2 x { t with V := V, pc := pc }).1 (hI ▸ hin)
  refine ⟨u, hu, (hload.index rfl).trans hI, fun r hr => ?_⟩
  calc u.reg r = Memory.read t.mem (t.I.toNat + r.val) := hloaded r hr
    _ = Memory.read t.mem (s.I.toNat + r.val) := by rw [hI]
    _ = s.reg r := hstored r hr

end Sys2Proof.Machine

/-! ## The display (R180 to R186) -/

namespace Sys2Proof.Machine

/-! ### Clearing -/

theorem Keeps.setDisplay (s : State) (vb : Frame) : Keeps { display := true } s { s with vb := vb } :=
  { Keeps.refl { display := true } s with display := nofun }

/-- Settles O54: the rows written are dark, and `00E0` writes nothing else. -/
theorem clsClearsEveryCell : Obligations.ClsClearsEveryCell :=
  ⟨opcodeMap_row_encodedAs 0, fun s =>
    ⟨_, exec_completed rfl, pixel_dark, completed_ends nofun rfl (Keeps.setDisplay s _)⟩⟩

/-! ### The cells a sprite covers -/

/-- The bytes of the sprite of a `Dxyn` of height `n` (R181). -/
abbrev State.sprite (s : State) (n : Nat) : List Byte := Memory.loadBytes s.mem s.I.toNat n

section
variable {s t : State} {x y : Reg} {n px py : Nat}

theorem sprite_getElem {r : Nat} (h : r < (s.sprite n).length) :
    (s.sprite n)[r] = Memory.read s.mem (s.I.toNat + r) := by
  simp [State.sprite, Memory.loadBytes_eq]

/-- The rows the model draws and clips have an on-bit exactly in the cells `SpriteCovers` names. -/
theorem spriteCovers_iff_spriteRow (hpx : px < 64) :
    SpriteCovers s x y n px py ↔
      ∃ h : originRow (s.reg y) ≤ py ∧ py - originRow (s.reg y) < (s.sprite n).length,
        (spriteRow (s.sprite n)[py - originRow (s.reg y)] (originColumn (s.reg x))).getLsbD px = true := by
  simp only [sprite_getElem, spriteRow_getLsbD]
  constructor
  · rintro ⟨r, c, hr, hc, hcol, hrow, hbit⟩
    have hsub : py - originRow (s.reg y) = r := by rw [hrow, originRow, Nat.add_sub_cancel_left]
    exact ⟨⟨hrow ▸ Nat.le_add_right .., by rwa [hsub, Memory.length_loadBytes]⟩,
      Nat.le_of_lt_succ hpx, c, hc, hcol, hsub ▸ hbit⟩
  · rintro ⟨⟨hle, hlt⟩, -, c, hc, hcol, hbit⟩
    exact ⟨py - originRow (s.reg y), c, hlt.trans_eq (Memory.length_loadBytes ..), hc, hcol,
      (Nat.add_sub_of_le hle).symm, hbit⟩

/-- The place, `I` and the bytes of memory determine the cells. -/
theorem spriteCovers_congr (hmem : ∀ a, Memory.read t.mem a = Memory.read s.mem a) (hI : t.I = s.I)
    (hx : (t.reg x).toNat % 64 = (s.reg x).toNat % 64) (hy : (t.reg y).toNat % 32 = (s.reg y).toNat % 32) :
    SpriteCovers t x y n px py ↔ SpriteCovers s x y n px py := by
  simp only [SpriteCovers, hmem, hI, hx, hy]

theorem not_spriteCovers_zero : ¬SpriteCovers s x y 0 px py :=
  fun ⟨_, _, hr, _⟩ => Nat.not_lt_zero _ hr

end

/-! ### Drawing -/

theorem flagByte_eq_one (f : Bool) : flagByte f = 0x01#8 ↔ f = true := by cases f <;> decide

section
variable {s : State} {x y : Reg} {n px py : Nat}

theorem pixel_completed_drw (hpy : py < 32) :
    Frame.pixel (completed s (.drw x y n)).vb px py =
      (Frame.pixel s.vb px py ^^
        if h : originRow (s.reg y) ≤ py ∧ py - originRow (s.reg y) < (s.sprite n).length then
          (spriteRow (s.sprite n)[py - originRow (s.reg y)] (originColumn (s.reg x))).getLsbD px else false) :=
  pixel_drawSprite _ _ _ s.vb px py hpy

theorem pixel_completed_drw_covered (hpx : px < 64) (hpy : py < 32) (hcov : SpriteCovers s x y n px py) :
    Frame.pixel (completed s (.drw x y n)).vb px py = !Frame.pixel s.vb px py := by
  obtain ⟨hrow, hbit⟩ := (spriteCovers_iff_spriteRow hpx).mp hcov
  rw [pixel_completed_drw hpy, dif_pos hrow, hbit, Bool.xor_true]

theorem pixel_completed_drw_uncovered (hpx : px < 64) (hpy : py < 32) (hcov : ¬SpriteCovers s x y n px py) :
    Frame.pixel (completed s (.drw x y n)).vb px py = Frame.pixel s.vb px py := by
  rw [pixel_completed_drw hpy]
  split
  case isTrue hrow =>
    rw [Bool.eq_false_of_not_eq_true fun hbit => hcov ((spriteCovers_iff_spriteRow hpx).mpr ⟨hrow, hbit⟩),
      Bool.xor_false]
  case isFalse => exact Bool.xor_false _

theorem completed_drw_flag (s : State) (x y : Reg) (n : Nat) :
    (completed s (.drw x y n)).reg 15 =
      flagByte (collides (originColumn (s.reg x)) s.vb (originRow (s.reg y)) (s.sprite n)) :=
  State.reg_setReg_same ..

/-- Clipped columns are in no row the model draws, so every collision is on the display. -/
theorem collides_iff_spriteCovers :
    collides (originColumn (s.reg x)) s.vb (originRow (s.reg y)) (s.sprite n) = true ↔
      ∃ px py, px < 64 ∧ py < 32 ∧ SpriteCovers s x y n px py ∧ Frame.pixel s.vb px py = true := by
  rw [collides_iff]
  constructor
  · rintro ⟨px, py, hrow, hpy, hbit, hlit⟩
    have hpx : px < 64 := Nat.lt_succ_of_le ((spriteRow_getLsbD ..).mp hbit).1
    exact ⟨px, py, hpx, hpy, (spriteCovers_iff_spriteRow hpx).mpr ⟨hrow, hbit⟩, hlit⟩
  · rintro ⟨px, py, hpx, hpy, hcov, hlit⟩
    obtain ⟨hrow, hbit⟩ := (spriteCovers_iff_spriteRow hpx).mp hcov
    exact ⟨px, py, hrow, hpy, hbit, hlit⟩

theorem Keeps.draw (s : State) (vb : Frame) (b : Byte) :
    Keeps { regs := [15], display := true } s (State.setReg { s with vb := vb } VF b) :=
  { Keeps.setReg (w := { regs := [15], display := true }) (s := s) (x := VF) b List.mem_cons_self with
    display := nofun }

/-- `Dxyn` alone ends with `redraw` set. -/
theorem completed_drw_ends (s : State) (x y : Reg) (n : Nat) :
    Ends { regs := [15], display := true } (s.pc + 2) true s (completed s (.drw x y n)) :=
  ⟨rfl, rfl, (Keeps.draw s _ _).finish _ _⟩

end

/-- Settles O55: for the toggle and for the collision the cells are those `SpriteCovers` names. -/
theorem drwTogglesTheCoveredCells : Obligations.DrwTogglesTheCoveredCells := by
  refine ⟨opcodeMap_row_encodedAs 22, fun x y n s => ⟨fun hin => ?_, fun hn hout => exec_latches (if_pos ⟨hn, hout⟩)⟩⟩
  refine ⟨_, exec_completed (if_neg (by omega)),
    fun px py hpx hpy => ⟨pixel_completed_drw_covered hpx hpy, pixel_completed_drw_uncovered hpx hpy⟩, ?_, ?_,
    completed_drw_ends s x y n⟩
  · rw [completed_drw_flag]
    exact (flagByte_zero_or_one _).symm
  · rw [completed_drw_flag, flagByte_eq_one, collides_iff_spriteCovers]

/-! ### Drawing twice -/

theorem pixel_off_display (vb : Frame) {px py : Nat} (h : ¬(px < 64 ∧ py < 32)) : Frame.pixel vb px py = false := by
  unfold Frame.pixel
  split
  case isTrue hpy => exact BitVec.getLsbD_of_ge _ _ (Nat.le_of_not_lt fun hpx => h ⟨hpx, hpy⟩)
  case isFalse => rfl

/-- Displays that agree on their cells agree at every pair of numbers. -/
theorem pixel_ext {vb vb' : Frame}
    (h : ∀ px py, px < 64 → py < 32 → Frame.pixel vb px py = Frame.pixel vb' px py) (px py : Nat) :
    Frame.pixel vb px py = Frame.pixel vb' px py := by
  by_cases hon : px < 64 ∧ py < 32
  · exact h px py hon.1 hon.2
  · rw [pixel_off_display vb hon, pixel_off_display vb' hon]

/-- `vb'` is `vb` with the cells of `C` toggled. -/
def Toggled (C : Nat → Nat → Prop) (vb vb' : Frame) : Prop :=
  ∀ px py, px < 64 → py < 32 →
    (C px py → Frame.pixel vb' px py = !Frame.pixel vb px py) ∧
    (¬C px py → Frame.pixel vb' px py = Frame.pixel vb px py)

section
variable {C : Nat → Nat → Prop} {vb vb' vb'' : Frame}

theorem Toggled.twice (h : Toggled C vb vb') (h' : Toggled C vb' vb'') (px py : Nat) :
    Frame.pixel vb'' px py = Frame.pixel vb px py := by
  refine pixel_ext (fun px py hpx hpy => ?_) px py
  obtain ⟨hcov, huncov⟩ := h px py hpx hpy
  obtain ⟨hcov', huncov'⟩ := h' px py hpx hpy
  by_cases hC : C px py
  · rw [hcov' hC, hcov hC, Bool.not_not]
  · rw [huncov' hC, huncov hC]

/-- The toggled cells that are lit afterwards are those that were turned on. -/
theorem Toggled.lit_iff_turned_on (h : Toggled C vb vb') :
    (∃ px py, px < 64 ∧ py < 32 ∧ C px py ∧ Frame.pixel vb' px py = true) ↔
      ∃ px py, Frame.pixel vb px py = false ∧ Frame.pixel vb' px py = true := by
  constructor
  · rintro ⟨px, py, hpx, hpy, hC, hlit⟩
    exact ⟨px, py, by rwa [(h px py hpx hpy).1 hC, Bool.not_eq_true'] at hlit, hlit⟩
  · rintro ⟨px, py, hdark, hlit⟩
    obtain ⟨hpx, hpy⟩ : px < 64 ∧ py < 32 := by
      by_contra hoff
      exact Bool.false_ne_true ((pixel_off_display vb' hoff).symm.trans hlit)
    refine ⟨px, py, hpx, hpy, ?_, hlit⟩
    by_contra hC
    exact Bool.false_ne_true (hdark.symm.trans (((h px py hpx hpy).2 hC).symm.trans hlit))

end

/-- Settles O56: at the same place the second draw covers the cells of the first (O55), and toggling twice restores. -/
theorem drawingTwiceRestoresTheDisplay : Obligations.DrawingTwiceRestoresTheDisplay := by
  refine ⟨fun x y n s hin => ?_, fun x y s => ?_⟩
  · obtain ⟨t, ht, hfirst, -, -, -, -, hkeeps⟩ := (drwTogglesTheCoveredCells.2 x y n s).1 hin
    refine ⟨t, ht, fun hx hy => ?_⟩
    have hI : t.I = s.I := hkeeps.index rfl
    have hmem : ∀ a, Memory.read t.mem a = Memory.read s.mem a :=
      fun a => hkeeps.memory a fun h => Nat.not_lt_zero a h.2
    obtain ⟨u, hu, hsecond, -, hflag, -⟩ := (drwTogglesTheCoveredCells.2 x y n t).1 (hI.symm ▸ hin)
    simp only [spriteCovers_congr hmem hI hx hy] at hsecond hflag
    exact ⟨u, hu, Toggled.twice hfirst hsecond, hflag.trans (Toggled.lit_iff_turned_on hfirst)⟩
  · obtain ⟨t, ht, hcells, hzero, hone, hpc, hredraw, hkeeps⟩ := (drwTogglesTheCoveredCells.2 x y 0 s).1 (.inl rfl)
    have hsame : ∀ px py, Frame.pixel t.vb px py = Frame.pixel s.vb px py :=
      pixel_ext fun px py hpx hpy => (hcells px py hpx hpy).2 not_spriteCovers_zero
    have hnocollision : t.reg 15 ≠ 0x01#8 := fun h =>
      let ⟨_, _, _, _, hcov, _⟩ := hone.mp h
      not_spriteCovers_zero hcov
    exact ⟨t, ht, hzero.resolve_left hnocollision, hpc, hredraw, { hkeeps with display := fun _ => hsame }⟩

end Sys2Proof.Machine

/-! ## Keys and timers (R190 to R196) -/

namespace Sys2Proof.Machine

/-! ### Skips on a key -/

/-- Settles O57: the guard is the table's, and both skips are transfers whose signal the key selects. -/
theorem skipsOnAKey : Obligations.SkipsOnAKey := by
  refine ⟨opcodeMap_row_encodedAs 23, opcodeMap_row_encodedAs 24, fun x s => ⟨fun hkey => ?_, fun hkey => ?_⟩⟩
  · have hin : ¬15 < (s.reg x).toNat := Nat.not_lt.mpr hkey
    exact ⟨exec_transfer_ends (if_neg hin) nofun rfl (Signal.target_ite ..),
      exec_transfer_ends (if_neg hin) nofun rfl (Signal.target_ite ..)⟩
  · exact ⟨exec_latches (if_pos hkey), exec_latches (if_pos hkey)⟩

/-! ### The key wait -/

section
variable {s : State} {x : Reg} {k : Nat}

theorem State.lowestKey_some_iff :
    s.lowestKey = some k ↔ k < 16 ∧ s.keys.getLsbD k = true ∧ ∀ j < k, s.keys.getLsbD j = false := by
  refine ⟨State.lowestKey_some, fun ⟨hlt, hpressed, hfirst⟩ => ?_⟩
  exact List.find?_range_eq_some.mpr
    ⟨hpressed, List.mem_range.mpr hlt, fun j hj => (Bool.not_eq_true' _).mpr (hfirst j hj)⟩

theorem exec_ldVxK_pressed_ends (hk : s.lowestKey = some k) :
    ∃ t, exec (.ldVxK x) s = .next t ∧ t.reg x = BitVec.ofNat 8 k ∧ Ends { regs := [x] } (s.pc + 2) false s t := by
  have hpressed : s.keys ≠ 0#16 := mt State.lowestKey_none_iff.mpr (by simp [hk])
  have hown : ownWrites s (.ldVxK x) = s.setReg x (BitVec.ofNat 8 k) := by
    rw [ownWrites, hk]
    rfl
  exact exec_setReg_ends rfl nofun hown (if_neg hpressed)

/-- A blocked wait is a transfer to its own address. -/
theorem exec_ldVxK_blocked_ends (hk : s.keys = 0#16) : ∃ t, exec (.ldVxK x) s = .next t ∧ Ends {} s.pc false s t := by
  have hown : ownWrites s (.ldVxK x) = s := by
    rw [ownWrites, State.lowestKey_none_iff.mpr hk]
    rfl
  exact exec_transfer_ends rfl nofun hown (congrArg (Signal.target s.pc) (if_pos hk))

end

/-- Settles O59: the lowest pressed key is the one the model finds, and with none pressed the model finds none. -/
theorem ldVxKWaitsForTheLowestKey : Obligations.LdVxKWaitsForTheLowestKey := by
  refine ⟨opcodeMap_row_encodedAs 26, fun x s => ⟨fun k hlt hpressed hfirst => ?_, exec_ldVxK_blocked_ends⟩⟩
  obtain ⟨t, ht, hx, hends⟩ :=
    exec_ldVxK_pressed_ends (x := x) (State.lowestKey_some_iff.mpr ⟨hlt, hpressed, hfirst⟩)
  have hbyte : (BitVec.ofNat 8 k).toNat = k :=
    (BitVec.toNat_ofNat ..).trans (Nat.mod_eq_of_lt (by omega))
  exact ⟨t, ht, hx ▸ hbyte, hends⟩

/-! ### Timers -/

/-- Settles O58: the delay timer is read into the register and not written. -/
theorem ldVxDTReadsTheDelayTimer : Obligations.LdVxDTReadsTheDelayTimer :=
  ⟨opcodeMap_row_encodedAs 25, fun _ _ => exec_setReg_ends rfl nofun rfl rfl⟩

theorem Keeps.setDT (s : State) (v : Byte) : Keeps { delay := true } s { s with DT := v } :=
  { Keeps.refl { delay := true } s with delay := nofun }

theorem Keeps.setST (s : State) (v : Byte) : Keeps { sound := true } s { s with ST := v } :=
  { Keeps.refl { sound := true } s with sound := nofun }

theorem State.beep_iff (s : State) : s.beep = true ↔ 0 < s.ST.toNat := decide_eq_true_iff

/-- Settles O60: each timer is written alone, and the beep is a function of the sound timer. -/
theorem timersAreSetFromARegister : Obligations.TimersAreSetFromARegister :=
  ⟨opcodeMap_row_encodedAs 27, opcodeMap_row_encodedAs 28, fun x s =>
    ⟨⟨_, exec_completed rfl, rfl, completed_ends nofun rfl (Keeps.setDT s (s.reg x))⟩,
      ⟨_, exec_completed rfl, rfl, State.beep_iff _, completed_ends nofun rfl (Keeps.setST s (s.reg x))⟩⟩⟩

end Sys2Proof.Machine

/-! ## Faults, the timer step and the host operations (R210 to R217, R226, R229, R239, R240) -/

namespace Sys2Proof.Machine

section
variable {i : Instr} {s t : State} {f : LatchedFault}

/-! ### Taking a fault -/

theorem exec_of_fault (hf : tableFault s i = some f) : exec i s = .next { s with fault := some f } := by
  rw [exec_eq, hf]
  rfl

theorem instrStep_of_fetchFault (hrun : s.Running) (hpc : 0xFFE < s.pc.toNat) :
    instrStep s = .next { s with fault := some ⟨.fetchOutOfBounds, s.pc⟩ } := by
  rw [instrStep_eq, if_neg (by simp [hrun]), if_neg (Nat.not_le.mpr hpc)]
  rfl

/-- The fault an instruction step of a running machine takes: the fetch's, else that of the decoded instruction. -/
def stepFault (s : State) : Option LatchedFault :=
  if 0xFFE < s.pc.toNat then some ⟨.fetchOutOfBounds, s.pc⟩
  else match decodeWord s.fetchedWord with
    | .ok i => tableFault s i
    | .error _ => none

theorem stepFault_of_decode (hpc : s.pc.toNat ≤ 0xFFE) (hi : decodeWord s.fetchedWord = .ok i) :
    stepFault s = tableFault s i := by
  rw [stepFault, if_neg (Nat.not_lt.mpr hpc), hi]

theorem stepFault_of_unknown {r : DecodeReject} (hpc : s.pc.toNat ≤ 0xFFE) (hr : decodeWord s.fetchedWord = .error r) :
    stepFault s = none := by
  rw [stepFault, if_neg (Nat.not_lt.mpr hpc), hr]

/-- An instruction step of a running machine takes `stepFault` and changes nothing else, or stays without a fault. -/
theorem instrStep_latches_or_runs (hrun : s.Running) (h : instrStep s = .next t) :
    (∃ f, stepFault s = some f ∧ t = { s with fault := some f }) ∨ (stepFault s = none ∧ t.Running) := by
  obtain ⟨hpc, rfl⟩ | ⟨hpc, ⟨i, hi, he⟩ | ⟨r, hr, rfl⟩⟩ := instrStep_cases hrun h
  · exact .inl ⟨_, if_pos hpc, rfl⟩
  · rw [stepFault_of_decode hpc hi]
    obtain hfault | ⟨hnf, rfl⟩ := exec_ends he
    · exact .inl hfault
    · exact .inr ⟨hnf, (ownWrites_fault s i).trans hrun⟩
  · exact .inr ⟨stepFault_of_unknown hpc hr, hrun⟩

theorem instrStep_fault (hrun : s.Running) (h : instrStep s = .next t) : t.fault = stepFault s := by
  obtain ⟨f, hf, rfl⟩ | ⟨hnf, ht⟩ := instrStep_latches_or_runs hrun h
  · exact hf.symm
  · exact ht.trans hnf.symm

/-- Taking a fault is precise (R216). -/
theorem instrStep_latches_alone (hrun : s.Running) (h : instrStep s = .next t) (hfault : t.fault ≠ none) :
    t = { s with fault := t.fault } := by
  obtain ⟨f, -, rfl⟩ | ⟨-, ht⟩ := instrStep_latches_or_runs hrun h
  · rfl
  · exact absurd ht hfault

/-! ### The timer step -/

theorem timerStep_of_running (hrun : s.Running) :
    timerStep s = { s with DT := countDown s.DT, ST := countDown s.ST } := if_neg (by simp [State.halted, hrun])

theorem timerStep_of_halted (hhalt : ¬s.Running) : timerStep s = s := if_pos (Option.isSome_iff_ne_none.mpr hhalt)

theorem timerStep_fault (s : State) : (timerStep s).fault = s.fault := by
  by_cases hrun : s.Running
  · rw [timerStep_of_running hrun]
  · rw [timerStep_of_halted hrun]

theorem timerStep_ST_toNat (hrun : s.Running) : (timerStep s).ST.toNat = s.ST.toNat - 1 := by
  rw [timerStep_of_running hrun, countDown_toNat]

theorem Keeps.timerStep (hrun : s.Running) : Keeps { delay := true, sound := true } s (timerStep s) := by
  rw [timerStep_of_running hrun]
  exact { Keeps.refl { delay := true, sound := true } s with delay := nofun, sound := nofun }

theorem iterate_timerStep_ST_toNat (hrun : s.Running) (k : Nat) : (timerStep^[k] s).ST.toNat = s.ST.toNat - k := by
  induction k generalizing s with
  | zero => rfl
  | succ k ih =>
    rw [Function.iterate_succ_apply, ih ((timerStep_fault s).trans hrun), timerStep_ST_toNat hrun]
    omega

/-! ### The ROM load -/

variable {bytes : List Byte}

theorem romTooLarge_iff : romTooLarge bytes = true ↔ 3584 < bytes.length := decide_eq_true_iff

theorem romLoad_of_fits (hfits : bytes.length ≤ 3584) :
    romLoad bytes s = { s with mem := Memory.storeBytes s.mem 0x200 bytes } :=
  if_neg (mt romTooLarge_iff.mp (Nat.not_lt.mpr hfits))

theorem romLoad_of_tooLarge (hlong : 3584 < bytes.length) : romLoad bytes s = s := if_pos (romTooLarge_iff.mpr hlong)

theorem romLoad_fault (bytes : List Byte) (s : State) : (romLoad bytes s).fault = s.fault := by
  by_cases hfits : bytes.length ≤ 3584
  · rw [romLoad_of_fits hfits]
  · rw [romLoad_of_tooLarge (Nat.lt_of_not_le hfits)]

theorem Keeps.storeRom (s : State) (bytes : List Byte) :
    Keeps { stores := (0x200, bytes.length) } s { s with mem := Memory.storeBytes s.mem 0x200 bytes } :=
  { Keeps.refl { stores := (0x200, bytes.length) } s with
    memory := fun _ ha => Memory.read_storeBytes_outside s.mem bytes ha }

/-! ### The halted machine -/

theorem instrStep_of_halted (hhalt : ¬s.Running) : instrStep s = .next s :=
  if_pos (Option.isSome_iff_ne_none.mpr hhalt)

/-- Reset alone takes a latched fault away (R217). -/
theorem performEvent_fault_of_halted {e : Event} (hhalt : ¬s.Running) (he : e ≠ .reset)
    (h : performEvent e s = .next t) : t.fault = s.fault := by
  cases e with
  | instrTick => rw [performEvent, instrStep_of_halted hhalt] at h; cases h; rfl
  | timerTick => cases h; exact timerStep_fault s
  | driveKeys keys => cases h; rfl
  | romLoad bytes => cases h; exact romLoad_fault bytes s
  | reset => exact absurd rfl he

end

/-! ### The statements -/

/-- Settles O10: the fetch fails before anything else is looked at, and the invariant bounds `pc` by 0x10FE. -/
theorem fetchOutOfRangeLatchesItsFault : Obligations.FetchOutOfRangeLatchesItsFault :=
  fun _ hrun hpc => ⟨⟨_, instrStep_of_fetchFault hrun hpc, rfl⟩, fun hinv => ⟨hpc, hinv.pc⟩⟩

/-- Settles O11: a fault is taken alone; while it is latched both ticks leave the whole state, the other events but
reset leave the fault, and reset leaves nothing. -/
theorem latchedFaultHaltsUntilReset : Obligations.LatchedFaultHaltsUntilReset := by
  refine ⟨fun s t => instrStep_latches_alone, fun s f hf => ?_⟩
  have hhalt : ¬s.Running := by simp [hf]
  refine ⟨by rw [State.faultCode, hf], by rw [State.faultInfo, hf]; rfl, instrStep_of_halted hhalt,
    congrArg Host.Outcome.next (timerStep_of_halted hhalt), fun e he => ?_,
    hostReset s, rfl, holdsResetValues_hostReset s⟩
  obtain ⟨t, ht⟩ := performEvent_next e s
  exact ⟨t, ht, (performEvent_fault_of_halted hhalt he ht).trans hf⟩

/-- Settles O12: an instruction latches the fault of the table, or it completes, and its own writes are never to the
fault. -/
theorem instructionsFaultExactlyAsTheTableSays : Obligations.InstructionsFaultExactlyAsTheTableSays := by
  intro i s
  cases hf : tableFault s i with
  | none => exact ⟨completed s i, exec_completed hf, ownWrites_fault s i⟩
  | some f => exact ⟨_, exec_of_fault hf, rfl⟩

/-- Settles O13: the codes are read off cause by cause; the step latches `stepFault` and nothing with it. -/
theorem aStepLatchesTheFaultOfTheTable : Obligations.AStepLatchesTheFaultOfTheTable := by
  refine ⟨fun s => ?_, fun s hrun => ?_⟩
  · rw [State.faultCode]
    cases s.fault with
    | none => rfl
    | some f =>
      obtain ⟨cause, info⟩ := f
      cases cause <;> rfl
  · obtain ⟨t, ht⟩ := instrStep_next s
    exact ⟨t, ht, instrStep_fault hrun ht, instrStep_latches_alone hrun ht⟩

/-- Settles O24: each timer counts down on its own, and a halted machine's timer step does nothing. -/
theorem timerStepCountsBothTimersDown : Obligations.TimerStepCountsBothTimersDown := by
  refine fun s => ⟨fun hrun => ?_, fun hhalt => congrArg Host.Outcome.next (timerStep_of_halted hhalt)⟩
  have heq := timerStep_of_running hrun
  have hDT : (timerStep s).DT.toNat = s.DT.toNat - 1 := by rw [heq, countDown_toNat]
  exact ⟨timerStep s, rfl, hDT, timerStep_ST_toNat hrun, by rw [heq], by rw [heq], Keeps.timerStep hrun⟩

/-- Settles O25: `k` timer steps take `k` from `ST`, down to 0, and `v - k` is above 0 exactly where `k < v`. -/
theorem beepIsSampledOneTickLess : Obligations.BeepIsSampledOneTickLess := by
  refine fun s k hrun => ⟨s.beep_iff, ?_⟩
  rw [State.beep_iff, iterate_timerStep_ST_toNat hrun, Nat.sub_pos_iff_lt]

/-- Settles O27: the bytes that fit are stored as they stand from 0x200 on; longer ones are not stored at all. -/
theorem romLoadCopiesVerbatimOrRefuses : Obligations.RomLoadCopiesVerbatimOrRefuses := by
  refine fun s bytes => ⟨fun hfits => ?_, fun hlong => ?_⟩
  · have hnot : romTooLarge bytes = false := Bool.eq_false_iff.mpr (mt romTooLarge_iff.mp (Nat.not_lt.mpr hfits))
    exact ⟨hnot, _, congrArg Host.Outcome.next (romLoad_of_fits hfits),
      Memory.read_storeBytes_inside s.mem 0x200 bytes, rfl, rfl, Keeps.storeRom s bytes⟩
  · exact ⟨romTooLarge_iff.mpr hlong, congrArg Host.Outcome.next (romLoad_of_tooLarge hlong)⟩

/-- Settles O28: the key level is a field of its own, and driving it writes no other. -/
theorem keyUpdateChangesTheKeysAlone : Obligations.KeyUpdateChangesTheKeysAlone :=
  fun s k => ⟨driveKeys k s, rfl, rfl, rfl⟩

end Sys2Proof.Machine
